-- ==== Sys2Proof/Word.lean ====
section
/-! DEFINITION. The unsigned words of the block (00_scope.md R8, R9): bytes, 16-bit values and byte sequences. -/

namespace Sys2Proof

/-- A `Byte`: an unsigned 8-bit value (R8). -/
abbrev Byte := BitVec 8

/-- A `U16`: an unsigned 16-bit value (R8). -/
abbrev U16 := BitVec 16

/-- A byte sequence (R9). -/
abbrev Bytes := List Byte

end Sys2Proof
end

