-- ==== Sys2Proof/Config.lean ====
section
/-! DEFINITION. The constants every model of the block has (00_scope.md R6), the types of the parameters a model
takes as an argument (R7), and the one complete choice of those parameters that the spec writes out (95 part 0). -/

namespace Sys2Proof

/-! ## The parameters the source fixes (R6)

`CRC_REFIN` = `CRC_REFOUT` = false and `CRC_XOROUT` = 0x0000 have no constant here: they say what the CRC does not do
(no reflection, no final xor), and `crc16x` does not do it. -/

/-- `FRAME_LEN` (R6). -/
def Config.frameLen : Nat := 72
/-- `BODY_LEN`: the checksummed span is [0,70) (R6). -/
def Config.bodyLen : Nat := 70
/-- `CRC_OFF`: the checksum stands at [70,72) (R6). -/
def Config.crcOff : Nat := 70
/-- `CRC_POLY` (R6). -/
def Config.crcPoly : U16 := 0x1021
/-- `CRC_INIT` (R6). -/
def Config.crcInit : U16 := 0x0000
/-- `CHUNK_LEN`: payload bytes of one WriteFlashPacket frame (R6). -/
def Config.chunkLen : Nat := 64
/-- `PKT_IDX_BITS` (R6). -/
def Config.pktIdxBits : Nat := 8
/-- `PAGE_BITS` (R6). -/
def Config.pageBits : Nat := 16
/-- `LIC_ESCAPE` (R6, R112). -/
def Config.licEscape : Byte := 0x33
/-- `PAD_BYTE` (R6). -/
def Config.padByte : Byte := 0x00

/-! ## The parameters the source leaves open (R7)

They are plain data, so that a model can be given any of them and two can be compared. -/

/-- `Name` is a parameter (R7): the types and the meanings take it as their argument `ν`, any type with decidable
equality. This is the one that `State`, `exec` and `step` are given, since Host/Core.lean asks for one machine.
DESIGN CHOICE (log 2): strings. -/
abbrev Name := String

/-- The two names that the source fixes, as values of a name type (R7): the name "nintendo" and the name "EA". -/
structure FixedNames (ν : Type) where
  nintendo : ν
  ea : ν
deriving DecidableEq, Repr

/-- They are those strings when names are strings. -/
def Config.fixedNames : FixedNames Name := { nintendo := "nintendo", ea := "EA" }

/-- A partial map from codes to names (R101), as its entries in rising order of code. -/
abbrev CodeTable (κ ν : Type) := List (κ × ν)

/-- The bytes from `lo` to `hi`, both included. -/
structure ByteRange where
  lo : Byte
  hi : Byte
deriving DecidableEq, Repr

/-- A predicate on bytes (R7), as the ranges of bytes it holds of, in rising order. -/
abbrev ByteSet := List ByteRange

/-- The fields of a response frame, by their `RESP_LAYOUT` keys (R65). -/
inductive RespField where
  | fw | manuf | devid | prot | logo | title | cgb | newlic | sgb | ctype
  | romsz | ramsz | dest | oldlic | maskver | hdrck | cartck
deriving DecidableEq, Repr

/-- `RESP_LAYOUT`: one offset for each response field (R66). -/
structure RespLayout where
  fw : Nat
  manuf : Nat
  devid : Nat
  prot : Nat
  logo : Nat
  title : Nat
  cgb : Nat
  newlic : Nat
  sgb : Nat
  ctype : Nat
  romsz : Nat
  ramsz : Nat
  dest : Nat
  oldlic : Nat
  maskver : Nat
  hdrck : Nat
  cartck : Nat
deriving DecidableEq, Repr

/-- The parameters of one model instance (R7, R26, R27): the four lookup tables, the response layout and the three
predicates, over a name type. Fixed when the instance is made; no operation and no reset changes them (R31, R113). -/
structure Params (ν : Type) where
  /-- `MANUF_TABLE` (R102). -/
  manufTable : CodeTable Byte ν
  /-- `OLD_LIC_TABLE` (R103). -/
  oldLicTable : CodeTable Byte ν
  /-- `NEW_LIC_TABLE`, keyed by the raw byte pair in frame order (R104). -/
  newLicTable : CodeTable (Byte × Byte) ν
  /-- `CART_TYPE_TABLE` (R105). -/
  cartTypeTable : CodeTable Byte ν
  /-- `RESP_LAYOUT` (R66). -/
  respLayout : RespLayout
  /-- `LOGO_VALID_PRED` (R185). -/
  logoValidPred : ByteSet
  /-- `CGB_PRED` (R190). -/
  cgbPred : ByteSet
  /-- `SGB_PRED` (R192). -/
  sgbPred : ByteSet
deriving DecidableEq, Repr

/-- The default `LOGO_VALID_PRED`, `b != 0x00` (R185, D12). -/
def Config.logoNonZero : ByteSet := [⟨0x01, 0xFF⟩]

/-- The test layout VL (95_test_vectors.md part 0). It is not the device's layout, which no source gives (N1). -/
def Config.layoutVL : RespLayout :=
  { fw := 3, manuf := 4, devid := 5, prot := 6, logo := 7, title := 8, cgb := 24, newlic := 25, sgb := 27,
    ctype := 28, romsz := 29, ramsz := 30, dest := 31, oldlic := 32, maskver := 33, hdrck := 34, cartck := 35 }

/-- The test instance TI with layout VL (95_test_vectors.md part 0), the one complete instance the spec writes out.
Three entries are facts of the source (0x00 unmapped, 0x01 "nintendo", "13" "EA"); the rest is the spec's test choice.
DESIGN CHOICE (log 1): the instance that `State.reset` is written with. -/
def Config.testInst : Params Name :=
  { manufTable := [(0x01, "mf-01"), (0xC2, "mf-C2")]
    oldLicTable := [(0x01, "nintendo"), (0x33, "old-33")]
    newLicTable := [((0x31, 0x33), "EA")]
    cartTypeTable := [(0x01, "ct-01")]
    respLayout := Config.layoutVL
    logoValidPred := Config.logoNonZero
    cgbPred := [⟨0x80, 0xFF⟩]
    sgbPred := [⟨0x03, 0x03⟩] }

end Sys2Proof
end

