-- ==== Sys2Proof/Machine/Reply.lean ====
section
/-! DEFINITION. What an operation returns to the host: `OK` with a result, or an error with its info record
(60_exceptions.md R220, R221), and the records of the response decoder (43_response_decoder.md R182 to R198).
`ν` is the type of names (R7). -/

namespace Sys2Proof.Machine

/-- A lookup's result (R12, R100). -/
inductive Resolved (ν : Type) where
  | known (n : ν)
  | unknown
deriving DecidableEq, Repr

/-- The licensee scheme (R111). -/
inductive Scheme where
  | old
  | new
deriving DecidableEq, Repr

/-- The commands whose encoding no source gives (R158 to R160). -/
inductive Command where
  | writeRamPacket
  | readFlash
  | readRam
deriving DecidableEq, Repr

/-- The firmware version byte and its two nibbles (R182). -/
structure Firmware where
  raw : Byte
  major : BitVec 4
  minor : BitVec 4
deriving DecidableEq, Repr

/-- The flash manufacturer (R183). -/
structure Manufacturer (ν : Type) where
  code : Byte
  name : Resolved ν
deriving DecidableEq, Repr

/-- The destination (R195). -/
inductive Dest where
  | japan
  | nonJapan
  | destUnknown
deriving DecidableEq, Repr

/-- The fields decoded in both states (R182 to R184). -/
structure ReaderInfo (ν : Type) where
  fw : Firmware
  man : Manufacturer ν
  dev : Byte
deriving DecidableEq, Repr

/-- The fields decoded only in `LogoValid` (R187 to R198). -/
structure CartridgeInfo (ν : Type) where
  protect : Byte
  title : Bytes
  cgbRaw : Byte
  cgb : Bool
  licScheme : Scheme
  licensee : Resolved ν
  oldLicRaw : Byte
  newLicRaw : Byte × Byte
  sgbRaw : Byte
  sgb : Bool
  cartTypeCode : Byte
  cartType : Resolved ν
  romSizeCode : Byte
  ramSizeCode : Byte
  destRaw : Byte
  dest : Dest
  maskRomVersion : Byte
  headerChecksum : Byte
  cartChecksum : U16
deriving DecidableEq, Repr

/-- The fixed message `BLANK` of a `LogoInvalid` record (R186). -/
inductive Message where
  | blank
deriving DecidableEq, Repr

/-- The cartridge-header record, in one of the decoder's two states (R185). -/
inductive Header (ν : Type) where
  | logoInvalid (info : ReaderInfo ν) (message : Message)
  | logoValid (info : ReaderInfo ν) (cart : CartridgeInfo ν)
deriving DecidableEq, Repr

/-- An `OK` result: the result column of R71. -/
inductive Result (ν : Type) where
  | none
  | word (v : U16)
  | frame (f : Bytes)
  | header (h : Header ν)
  | resolved (r : Resolved ν)
  | licensee (scheme : Scheme) (r : Resolved ν)
deriving DecidableEq, Repr

/-- An error with its info record (R221). The block has these four and no other (R226). -/
inductive Error where
  | overlength (length limit : Nat)
  | checksumMismatch (computed stored : U16)
  | indexRange (index limit : Nat)
  /-- `UNSUPPORTED(command = …)`, of an encoder whose bytes no source gives. -/
  | unsupportedCommand (command : Command)
  /-- `UNSUPPORTED(opsel = …)`, of a reserved selector. -/
  | unsupportedOpsel (opsel : Byte)
deriving DecidableEq, Repr

/-- How an operation ends (R220). -/
inductive Reply (ν : Type) where
  | ok (r : Result ν)
  | error (e : Error)
deriving DecidableEq, Repr

end Sys2Proof.Machine
end

