-- ==== Sys2Proof/Machine/Flags.lean ====
section
/-! DEFINITION. The block has no flags register and no condition codes (10_state.md R25): each operation reports
its outcome in its own result. This file gives that outcome's code (60_exceptions.md R221). -/

namespace Sys2Proof.Machine

/-- The error code of R221. -/
def errorCode : Error → Nat
  | .overlength _ _ => 1
  | .checksumMismatch _ _ => 2
  | .indexRange _ _ => 3
  | .unsupportedCommand _ => 4
  | .unsupportedOpsel _ => 4

/-- The outcome code of R221: 0 is `OK`. -/
def outcomeCode {ν : Type} : Reply ν → Nat
  | .ok _ => 0
  | .error e => errorCode e

end Sys2Proof.Machine
end

