-- ==== Sys2Proof/Machine/Operands.lean ====
section
/-! DEFINITION. Byte sequences and frames as operands (00_scope.md R9 to R11, 20_memory.md R40 to R48): byte
order, slices, padding, and the fields of a response frame (30_encoding.md R65, R66; 43_response_decoder.md
R181). -/

namespace Sys2Proof.Machine

/-- `be16(hi, lo) = (hi << 8) | lo` (R10, R44). -/
def be16 (hi lo : Byte) : U16 := (hi.setWidth 16 <<< 8) ||| lo.setWidth 16

/-- `be16_bytes(v) = [v[15:8], v[7:0]]`: the high byte first (R10, R44). -/
def be16Bytes (v : U16) : Bytes := [v.extractLsb' 8 8, v.extractLsb' 0 8]

/-- `zeros(n)` (R9). -/
def zeros (n : Nat) : Bytes := List.replicate n Config.padByte

/-- `s ++ zeros(n - len(s))`: `s` padded to `n` bytes (R60, R64). -/
def padTo (n : Nat) (s : Bytes) : Bytes := s ++ zeros (n - s.length)

/-- `MemRead(F, a, n) = F[a:a+n)` (R11). -/
def memRead (f : Bytes) (a n : Nat) : Bytes := (f.drop a).take n

/-- `MemWrite(F, a, n, v)` for the n-byte sequence `v` (R11). -/
def memWrite (f : Bytes) (a : Nat) (v : Bytes) : Bytes := f.take a ++ v ++ f.drop (a + v.length)

/-- `F[i]` (R9). Every access of the block is inside the frame (R47); the 0 past the end is never read by a run. -/
def byteAt (f : Bytes) (i : Nat) : Byte := f.getD i 0

/-- The 16-bit field at offset `a` (R45). -/
def word16At (f : Bytes) (a : Nat) : U16 := be16 (byteAt f a) (byteAt f (a + 1))

/-- The body of a frame: the checksummed span [0,70) (R40). -/
def bodyOf (f : Bytes) : Bytes := memRead f 0 Config.bodyLen

/-- The checksum a frame carries at [70,72) (R61). -/
def storedChecksum (f : Bytes) : U16 := word16At f Config.crcOff

/-! ## The fields of a response frame -/

/-- The width column of R65. -/
def fieldWidth : RespField → Nat
  | .fw => 1
  | .manuf => 1
  | .devid => 1
  | .prot => 1
  | .logo => 1
  | .title => 16
  | .cgb => 1
  | .newlic => 2
  | .sgb => 1
  | .ctype => 1
  | .romsz => 1
  | .ramsz => 1
  | .dest => 1
  | .oldlic => 1
  | .maskver => 1
  | .hdrck => 1
  | .cartck => 2

/-- `off(f)` of a layout (R66). -/
def fieldOff (l : RespLayout) : RespField → Nat
  | .fw => l.fw
  | .manuf => l.manuf
  | .devid => l.devid
  | .prot => l.prot
  | .logo => l.logo
  | .title => l.title
  | .cgb => l.cgb
  | .newlic => l.newlic
  | .sgb => l.sgb
  | .ctype => l.ctype
  | .romsz => l.romsz
  | .ramsz => l.ramsz
  | .dest => l.dest
  | .oldlic => l.oldlic
  | .maskver => l.maskver
  | .hdrck => l.hdrck
  | .cartck => l.cartck

/-- The fields of R65 in the source's order. -/
def respFields : List RespField :=
  [.fw, .manuf, .devid, .prot, .logo, .title, .cgb, .newlic, .sgb, .ctype,
    .romsz, .ramsz, .dest, .oldlic, .maskver, .hdrck, .cartck]

/-- `RESP_LAYOUT` is well-formed exactly when every field lies in [0,70) (R66). Fields may overlap. -/
def layoutWf (l : RespLayout) : Bool := respFields.all fun f => fieldOff l f + fieldWidth f ≤ Config.bodyLen

/-- `field(F, f) = F[off(f) : off(f) + width(f))` (R181). -/
def field (l : RespLayout) (f : Bytes) (k : RespField) : Bytes := memRead f (fieldOff l k) (fieldWidth k)

/-- A one-byte field, used as its only byte `field(F, f)[0]` (R181). -/
def fieldByte (l : RespLayout) (f : Bytes) (k : RespField) : Byte := byteAt (field l f k) 0

end Sys2Proof.Machine
end

