-- ==== Sys2Proof/Syntax.lean ====
section
/-! DEFINITION. The operations of the block (30_encoding.md R71), one constructor per row of spec/opcode_table.json,
with their typed operands (R73), and the request by which the host issues one. -/

namespace Sys2Proof

/-- One typed operand of a request (R71, R73). A frame operand is a byte sequence whose length is checked. -/
inductive Operand where
  | byte (b : Byte)
  | nat (n : Nat)
  | bytes (s : Bytes)
deriving DecidableEq, Repr

/-- What the host issues: an 8-bit operation selector with typed operands (R71). -/
structure Request where
  opsel : Byte
  operands : List Operand
deriving DecidableEq, Repr

/-- The operand forms of the opcode table's "format" column (R76). -/
inductive Form where
  | opNone | opB | opB2 | opB3 | opS | opGC | opF | opAny
deriving DecidableEq, Repr

/-- The 20 operations (R71). -/
inductive Instr where
  | crcInit
  | crcFeed (b : Byte)
  | crcRead
  | frameEnc (s : Bytes)
  | encInfo
  | encStatus
  | encEraseFlash
  | encEraseRam
  | encWfBegin
  | encWfPacket (g : Nat) (c : Bytes)
  | encWrPacket (ops : List Operand)
  | encRdFlash (ops : List Operand)
  | encRdRam (ops : List Operand)
  | frameVal (f : Bytes)
  | hdrDec (f : Bytes)
  | lutManuf (code : Byte)
  | lutOldlic (code : Byte)
  | lutNewlic (n1 n2 : Byte)
  | lutCart (code : Byte)
  | licRes (old n1 n2 : Byte)
deriving DecidableEq, Repr

end Sys2Proof
end

