-- ==== Sys2Proof/Machine/State.lean ====
section
/-! DEFINITION. The state of the block (10_state.md R21, R31): the `CRC` accumulator and the parameters of the
instance, with the host's side of the interface (R20, R23): the events it has issued and the replies it has been
given. -/

namespace Sys2Proof.Machine

/-- Why the machine stops with a fault. The block has no trap (R220, R230): every error is a result that is
returned to the host, so there is no fault and this type has no constructor. Safe: nothing is left out by it. -/
inductive Fault where
deriving DecidableEq, Repr

/-- Why a request has no meaning in this model. -/
inductive Refusal where
  /-- Raised by `exec`'s arm of an operation that has no meaning in this model yet. Safe. No arm raises it. -/
  | notModelled (mnemonic : String)
  /-- Raised by `step` when the instance's parameters are ill-formed: "An instance that breaks either is refused"
  (R252). Safe. -/
  | illFormedInst
  /-- Raised by `step`, and by FRAME.VAL and HDR.DEC themselves, for operands that the interface does not accept:
  "a model refuses such a request at its boundary" (R73, D26). The selector is named. Safe. -/
  | illTypedRequest (opsel : Byte)
deriving DecidableEq, Repr

/-- What the host does to the block: it issues an operation (R20), or the block is reset between two operations
(R251). -/
inductive HostEvent where
  | issue (r : Request)
  | reset
deriving DecidableEq, Repr

/-- The state of the block over a name type `ν` (R7). -/
structure State.Of (ν : Type) where
  /-- `CRC`, the one register (R21, R22). -/
  crc : U16
  /-- The parameters of the instance: table ROMs, response layout, predicates (R26, R27, the table under R31).
  Nothing writes them. -/
  params : Params ν
  /-- The MODEL's own: what the host issues, next first (R20, R24). The step takes the first. -/
  pending : List HostEvent
  /-- The MODEL's own: what the host has been given, oldest first (R23). No operation reads it. -/
  returned : List (Reply ν)
deriving DecidableEq, Repr

/-- The state of the machine behind Host/Core.lean: the block over the names of `Name` (log 2). -/
abbrev State := State.Of Name

/-- The machine right after reset (R31, R250): `CRC` is 0x0000. The parameters are "configured; not reset"; the
log's entry 1 names the instance written here (DESIGN CHOICE). Nothing is issued and nothing has been returned.
-/
def State.reset : State :=
  { crc := Config.crcInit, params := Config.testInst, pending := [], returned := [] }

end Sys2Proof.Machine
end

