-- ==== Sys2Proof/Machine/Tables.lean ====
section
/-! DEFINITION. The lookup tables and the resolve function (40_lookup_tables.md R100 to R106, R111), the
predicates, and which parameters make an instance (R66, R102 to R104, R252). -/

namespace Sys2Proof.Machine

/-- `T(k)` (R101). -/
def tableGet {κ ν : Type} [BEq κ] (t : CodeTable κ ν) (k : κ) : Option ν := t.lookup k

/-- `resolve(T, k)` (R106). -/
def resolve {κ ν : Type} [BEq κ] (t : CodeTable κ ν) (k : κ) : Resolved ν :=
  match tableGet t k with
  | some n => .known n
  | none => .unknown

/-- `LIC.RES`'s rule: only the escape value 0x33 exactly selects the new scheme (R111, R112). -/
def resolveLicensee {ν : Type} (p : Params ν) (old n1 n2 : Byte) : Scheme × Resolved ν :=
  if old = Config.licEscape then (.new, resolve p.newLicTable (n1, n2)) else (.old, resolve p.oldLicTable old)

/-- Whether a predicate on bytes holds (R7). -/
def predHolds (p : ByteSet) (b : Byte) : Bool := p.any fun r => r.lo ≤ b && b ≤ r.hi

/-! ## Which parameters make an instance (R252) -/

/-- The numbers rise strictly. -/
def rising : List Nat → Bool
  | [] => true
  | [_] => true
  | a :: b :: t => a < b && rising (b :: t)

/-- The place of a new-licensee key among the 65536 keys (R27). It orders the table's entries and nothing else. -/
def pairKey (k : Byte × Byte) : Nat := k.1.toNat * 256 + k.2.toNat

/-- Each code has at most one entry (R101), and equal tables are equal data: the codes rise. -/
def byteTableWf {ν : Type} (t : CodeTable Byte ν) : Bool := rising (t.map fun e => e.1.toNat)

/-- The same for the table keyed by byte pairs (R104). -/
def pairTableWf {ν : Type} (t : CodeTable (Byte × Byte) ν) : Bool := rising (t.map fun e => pairKey e.1)

/-- Equal predicates are equal data: no range is empty, and a gap of at least one byte stands between two ranges. -/
def byteSetWf : ByteSet → Bool
  | [] => true
  | [r] => r.lo ≤ r.hi
  | r :: q :: t => r.lo ≤ r.hi && r.hi.toNat + 1 < q.lo.toNat && byteSetWf (q :: t)

/-- The entries the source fixes (R102, R103, R104), given which names "nintendo" and "EA" are. -/
def fixedEntries {ν : Type} [DecidableEq ν] (nm : FixedNames ν) (p : Params ν) : Bool :=
  tableGet p.manufTable 0x00 == none && tableGet p.oldLicTable 0x01 == some nm.nintendo
    && tableGet p.newLicTable (0x31, 0x33) == some nm.ea

/-- The parameters make an instance over a name type: the tables and predicates are in their one form, the tables hold the
entries the source fixes, and the layout is well-formed (R252). -/
def instWf {ν : Type} [DecidableEq ν] (nm : FixedNames ν) (p : Params ν) : Bool :=
  byteTableWf p.manufTable && byteTableWf p.oldLicTable && pairTableWf p.newLicTable && byteTableWf p.cartTypeTable
    && byteSetWf p.logoValidPred && byteSetWf p.cgbPred && byteSetWf p.sgbPred
    && fixedEntries nm p && layoutWf p.respLayout

/-- The same for the names of `Name`. -/
def paramsWf (p : Params Name) : Bool := instWf Config.fixedNames p

end Sys2Proof.Machine
end

