-- ==== Sys2Proof/WellFormed.lean ====
section
/-! DEFINITION. Which instructions the operation interface can carry (R73): every operand value of its type, and
frames of exactly 72 bytes. A chunk or a sequence that is too long, and an index that is too large, are
well-formed operands: the operation itself returns the error (R151, R157). -/

namespace Sys2Proof

/-- A byte sequence is a frame when it has exactly 72 bytes (R9, R73). -/
def isFrame (f : Bytes) : Bool := f.length == Config.frameLen

/-- Well-formedness of an instruction: its frame operand, if it has one, has 72 bytes (R73, D26). -/
def Instr.wf : Instr → Bool
  | .frameVal f => isFrame f
  | .hdrDec f => isFrame f
  | .crcInit => true
  | .crcFeed _ => true
  | .crcRead => true
  | .frameEnc _ => true
  | .encInfo => true
  | .encStatus => true
  | .encEraseFlash => true
  | .encEraseRam => true
  | .encWfBegin => true
  | .encWfPacket _ _ => true
  | .encWrPacket _ => true
  | .encRdFlash _ => true
  | .encRdRam _ => true
  | .lutManuf _ => true
  | .lutOldlic _ => true
  | .lutNewlic _ _ => true
  | .lutCart _ => true
  | .licRes _ _ _ => true

end Sys2Proof
end

