-- ==== Sys2Proof/Machine/Ops.lean ====
section
/-! DEFINITION. The shared operations of the block: the CRC (41_crc16_xmodem.md R131, R132), sealing and
checking a frame (42_frame_codec.md R150, R161), and how an operation ends, with a result or with an error
(60_exceptions.md R220, R227). -/

namespace Sys2Proof.Machine

/-- Where a meaning ends, over a name type (R7). -/
abbrev OutcomeOf (ν : Type) := Host.Outcome (State.Of ν) Fault Refusal

/-- The same for the names of `Name`. -/
abbrev Outcome := OutcomeOf Name

variable {ν : Type}

/-! ## The CRC -/

/-- One bit of the byte step (R131): shift out bit 15, and subtract the generator if it was 1. -/
def crcShift (c : U16) : U16 := if c.getLsbD 15 then (c <<< 1) ^^^ Config.crcPoly else c <<< 1

/-- `crc_step(c, b)` (R131): the byte enters at bits 15..8, then 8 shifts. -/
def crcStep (c : U16) (b : Byte) : U16 := Nat.repeat crcShift 8 (c ^^^ (b.setWidth 16 <<< 8))

/-- `crc16x(s)` (R132): no reflection and no final xor. -/
def crc16x (s : Bytes) : U16 := s.foldl crcStep Config.crcInit

/-! ## Frames -/

/-- `seal(body)` (R150). -/
def sealBody (body : Bytes) : Bytes := body ++ be16Bytes (crc16x body)

/-- A command frame: the bytes padded to a body, sealed (R60). -/
def commandFrame (s : Bytes) : Bytes := sealBody (padTo Config.bodyLen s)

/-- The checksum test of R161 and R180: the error it raises, or none. -/
def checksumError (f : Bytes) : Option Error :=
  if crc16x (bodyOf f) = storedChecksum f then none
  else some (.checksumMismatch (crc16x (bodyOf f)) (storedChecksum f))

/-! ## How an operation ends -/

/-- The host is given one more reply (R20, R23). -/
def giveReply (r : Reply ν) (s : State.Of ν) : State.Of ν := { s with returned := s.returned ++ [r] }

/-- `CRC <- v` (R11). -/
def setCrc (v : U16) (s : State.Of ν) : State.Of ν := { s with crc := v }

/-- `return v`: the operation ends with a result (R11, R220). -/
def finish (r : Result ν) (s : State.Of ν) : OutcomeOf ν := .next (giveReply (.ok r) s)

/-- `raise E(info)`: the operation ends with an error, returned to the host as its result, and has no other
effect (R11, R220, R227). This is all that an error does: there is no trap, no vector, no handler and no saved
context (R230), and after it the host may issue any operation (R231). -/
def raiseError (e : Error) (s : State.Of ν) : OutcomeOf ν := .next (giveReply (.error e) s)

/-- What an operation on a frame does before anything else: the operand has 72 bytes, or the request is not
accepted (R73, D26). -/
def withFrame (opsel : Byte) (f : Bytes) (k : State.Of ν → OutcomeOf ν) (s : State.Of ν) : OutcomeOf ν :=
  if isFrame f then k s else .refused (.illTypedRequest opsel)

/-- A reserved selector (R72): `UNSUPPORTED(opsel)`, and no state changes. -/
def raiseReserved (opsel : Byte) (s : State.Of ν) : OutcomeOf ν := raiseError (.unsupportedOpsel opsel) s

/-- An encoder whose command bytes no source gives (R158 to R160): `UNSUPPORTED(command)`. -/
def raiseNoEncoding (c : Command) (s : State.Of ν) : OutcomeOf ν := raiseError (.unsupportedCommand c) s

/-- The effect of a reset between two operations (R250): `CRC` is 0x0000 and the parameters stay. -/
def resetBlock (s : State.Of ν) : State.Of ν := setCrc Config.crcInit s

end Sys2Proof.Machine
end

