-- ==== Sys2Proof/Machine/Crc.lean ====
section
/-! DEFINITION. The byte-serial operations of the CRC unit (41_crc16_xmodem.md R134 to R136). -/

namespace Sys2Proof.Machine

variable {ν : Type}

/-- CRC.INIT: `CRC <- 0x0000` (R134). -/
def execCrcInit (s : State.Of ν) : OutcomeOf ν := finish .none (setCrc Config.crcInit s)

/-- CRC.FEED b: `CRC <- crc_step(CRC, b)` (R135). -/
def execCrcFeed (b : Byte) (s : State.Of ν) : OutcomeOf ν := finish .none (setCrc (crcStep s.crc b) s)

/-- CRC.READ: `return CRC` (R136). -/
def execCrcRead (s : State.Of ν) : OutcomeOf ν := finish (.word s.crc) s

end Sys2Proof.Machine
end

