-- ==== Sys2Proof/Decode.lean ====
section
/-! DEFINITION. The operation interface's decoder and encoder (30_encoding.md R71 to R73, R76), the command
prefixes (R62, R63) and the frame patterns of the opcode table (R76). -/

namespace Sys2Proof

/-! ## Decoding a request -/

/-- What a request decodes to: an operation, a reserved selector (R72), or a request that the interface does not
accept because its operands are not those of its selector (R73, D26). -/
inductive Decoded where
  | ok (i : Instr)
  | reserved (opsel : Byte)
  | illTyped (opsel : Byte)
deriving DecidableEq, Repr

/-- OP-NONE: no operand. -/
def takeNone (o : Byte) (i : Instr) : List Operand → Decoded
  | [] => .ok i
  | _ => .illTyped o

/-- OP-B: one Byte. -/
def takeB (o : Byte) (mk : Byte → Instr) : List Operand → Decoded
  | [.byte b] => .ok (mk b)
  | _ => .illTyped o

/-- OP-B2: two Bytes. -/
def takeB2 (o : Byte) (mk : Byte → Byte → Instr) : List Operand → Decoded
  | [.byte a, .byte b] => .ok (mk a b)
  | _ => .illTyped o

/-- OP-B3: three Bytes. -/
def takeB3 (o : Byte) (mk : Byte → Byte → Byte → Instr) : List Operand → Decoded
  | [.byte a, .byte b, .byte c] => .ok (mk a b c)
  | _ => .illTyped o

/-- OP-S: one byte sequence of any length. -/
def takeS (o : Byte) (mk : Bytes → Instr) : List Operand → Decoded
  | [.bytes s] => .ok (mk s)
  | _ => .illTyped o

/-- OP-GC: a natural and a byte sequence. -/
def takeGC (o : Byte) (mk : Nat → Bytes → Instr) : List Operand → Decoded
  | [.nat g, .bytes c] => .ok (mk g c)
  | _ => .illTyped o

/-- OP-F: one frame. A sequence of another length than 72 is not accepted (R73, D26). -/
def takeF (o : Byte) (mk : Bytes → Instr) : List Operand → Decoded
  | [.bytes f] => if isFrame f then .ok (mk f) else .illTyped o
  | _ => .illTyped o

/-- The decoder: the selector map of R71. The selector is looked at first (R228), so a reserved one is reported
whatever its operands are; the operands of an OP-ANY row are not examined. -/
def decode (r : Request) : Decoded :=
  match r.opsel.toNat with
  | 0x00 => takeNone r.opsel .crcInit r.operands
  | 0x10 => takeB r.opsel .crcFeed r.operands
  | 0x20 => takeNone r.opsel .crcRead r.operands
  | 0x30 => takeS r.opsel .frameEnc r.operands
  | 0x40 => takeNone r.opsel .encInfo r.operands
  | 0x41 => takeNone r.opsel .encStatus r.operands
  | 0x42 => takeNone r.opsel .encEraseFlash r.operands
  | 0x43 => takeNone r.opsel .encEraseRam r.operands
  | 0x44 => takeNone r.opsel .encWfBegin r.operands
  | 0x45 => takeGC r.opsel .encWfPacket r.operands
  | 0x46 => .ok (.encWrPacket r.operands)
  | 0x47 => .ok (.encRdFlash r.operands)
  | 0x48 => .ok (.encRdRam r.operands)
  | 0x50 => takeF r.opsel .frameVal r.operands
  | 0x60 => takeF r.opsel .hdrDec r.operands
  | 0x70 => takeB r.opsel .lutManuf r.operands
  | 0x71 => takeB r.opsel .lutOldlic r.operands
  | 0x72 => takeB2 r.opsel .lutNewlic r.operands
  | 0x73 => takeB r.opsel .lutCart r.operands
  | 0x80 => takeB3 r.opsel .licRes r.operands
  | _ => .reserved r.opsel

/-! ## Encoding an instruction -/

/-- The request that stands for an instruction: the OPSEL and operands columns of R71. -/
def encode : Instr → Request
  | .crcInit => ⟨0x00, []⟩
  | .crcFeed b => ⟨0x10, [.byte b]⟩
  | .crcRead => ⟨0x20, []⟩
  | .frameEnc s => ⟨0x30, [.bytes s]⟩
  | .encInfo => ⟨0x40, []⟩
  | .encStatus => ⟨0x41, []⟩
  | .encEraseFlash => ⟨0x42, []⟩
  | .encEraseRam => ⟨0x43, []⟩
  | .encWfBegin => ⟨0x44, []⟩
  | .encWfPacket g c => ⟨0x45, [.nat g, .bytes c]⟩
  | .encWrPacket ops => ⟨0x46, ops⟩
  | .encRdFlash ops => ⟨0x47, ops⟩
  | .encRdRam ops => ⟨0x48, ops⟩
  | .frameVal f => ⟨0x50, [.bytes f]⟩
  | .hdrDec f => ⟨0x60, [.bytes f]⟩
  | .lutManuf code => ⟨0x70, [.byte code]⟩
  | .lutOldlic code => ⟨0x71, [.byte code]⟩
  | .lutNewlic n1 n2 => ⟨0x72, [.byte n1, .byte n2]⟩
  | .lutCart code => ⟨0x73, [.byte code]⟩
  | .licRes old n1 n2 => ⟨0x80, [.byte old, .byte n1, .byte n2]⟩

/-- The mnemonic of an instruction (R71). -/
def Instr.mnemonic : Instr → String
  | .crcInit => "CRC.INIT"
  | .crcFeed _ => "CRC.FEED"
  | .crcRead => "CRC.READ"
  | .frameEnc _ => "FRAME.ENC"
  | .encInfo => "ENC.INFO"
  | .encStatus => "ENC.STATUS"
  | .encEraseFlash => "ENC.ERASE_FLASH"
  | .encEraseRam => "ENC.ERASE_RAM"
  | .encWfBegin => "ENC.WF_BEGIN"
  | .encWfPacket _ _ => "ENC.WF_PACKET"
  | .encWrPacket _ => "ENC.WR_PACKET"
  | .encRdFlash _ => "ENC.RD_FLASH"
  | .encRdRam _ => "ENC.RD_RAM"
  | .frameVal _ => "FRAME.VAL"
  | .hdrDec _ => "HDR.DEC"
  | .lutManuf _ => "LUT.MANUF"
  | .lutOldlic _ => "LUT.OLDLIC"
  | .lutNewlic _ _ => "LUT.NEWLIC"
  | .lutCart _ => "LUT.CART"
  | .licRes _ _ _ => "LIC.RES"

/-! ## The opcode table -/

/-- One row of the opcode table: a request selects it when `OPSEL & mask == matched` (R76). -/
structure OpRow where
  mnemonic : String
  matched : Byte
  mask : Byte
  form : Form
deriving DecidableEq, Repr

/-- The "mnemonic", "match", "mask" and "format" columns of spec/opcode_table.json (R76). -/
def opcodeTable : List OpRow :=
  [⟨"CRC.INIT", 0x00, 0xFF, .opNone⟩, ⟨"CRC.FEED", 0x10, 0xFF, .opB⟩, ⟨"CRC.READ", 0x20, 0xFF, .opNone⟩,
    ⟨"FRAME.ENC", 0x30, 0xFF, .opS⟩, ⟨"ENC.INFO", 0x40, 0xFF, .opNone⟩, ⟨"ENC.STATUS", 0x41, 0xFF, .opNone⟩,
    ⟨"ENC.ERASE_FLASH", 0x42, 0xFF, .opNone⟩, ⟨"ENC.ERASE_RAM", 0x43, 0xFF, .opNone⟩,
    ⟨"ENC.WF_BEGIN", 0x44, 0xFF, .opNone⟩, ⟨"ENC.WF_PACKET", 0x45, 0xFF, .opGC⟩]
  ++ [⟨"ENC.WR_PACKET", 0x46, 0xFF, .opAny⟩, ⟨"ENC.RD_FLASH", 0x47, 0xFF, .opAny⟩, ⟨"ENC.RD_RAM", 0x48, 0xFF, .opAny⟩,
    ⟨"FRAME.VAL", 0x50, 0xFF, .opF⟩, ⟨"HDR.DEC", 0x60, 0xFF, .opF⟩, ⟨"LUT.MANUF", 0x70, 0xFF, .opB⟩,
    ⟨"LUT.OLDLIC", 0x71, 0xFF, .opB⟩, ⟨"LUT.NEWLIC", 0x72, 0xFF, .opB2⟩, ⟨"LUT.CART", 0x73, 0xFF, .opB⟩,
    ⟨"LIC.RES", 0x80, 0xFF, .opB3⟩]

/-- The row a selector selects, if any (R76); every other selector is reserved (R72). -/
def opcodeRow (o : Byte) : Option OpRow := opcodeTable.find? fun row => o &&& row.mask == row.matched

/-! ## Table words: an operation laid out as bits -/

/-- `n` bytes of `w`, the first in bits 7..0. -/
def bytesOfBits : Nat → Nat → Bytes
  | 0, _ => []
  | n + 1, w => BitVec.ofNat 8 w :: bytesOfBits n (w / 256)

/-- The operands that stand in the operand bits `w` of a table word that has `n` whole operand bytes: fields of
fixed width are zero-extended, a sequence takes the bytes that are there, and the natural of OP-GC, which the
table gives no bits, is 0. -/
def operandsOfBits (n w : Nat) : Form → List Operand
  | .opNone => []
  | .opB => (bytesOfBits 1 w).map .byte
  | .opB2 => (bytesOfBits 2 w).map .byte
  | .opB3 => (bytesOfBits 3 w).map .byte
  | .opS => [.bytes (bytesOfBits n w)]
  | .opGC => [.nat 0, .bytes (bytesOfBits n w)]
  | .opF => [.bytes (bytesOfBits Config.frameLen w)]
  | .opAny => []

/-- The request whose bits are `w`: OPSEL in bits 7..0 and the operand bits above it, all zero above `nbits`.
DESIGN CHOICE (log 3): the spec gives operands no bit layout (R73), and this one is used only for table words. -/
def requestOfTableWord (nbits w : Nat) : Request :=
  let v := w % 2 ^ nbits
  let o := BitVec.ofNat 8 v
  ⟨o, match opcodeRow o with
      | some row => operandsOfBits (nbits / 8 - 1) (v / 256) row.form
      | none => []⟩

/-- The instruction the decoder reads from a table word. -/
def decodeTableWord (nbits w : Nat) : Option Instr :=
  match decode (requestOfTableWord nbits w) with
  | .ok i => some i
  | .reserved _ => none
  | .illTyped _ => none

/-! ## Frame formats of the commands (R62, R63) -/

/-- Prefix of the Info request (R62). -/
def infoPrefix : Bytes := [0x55, 0x04, 0x01]
/-- Prefix of the Status request, the same as Info's (R62, R68). -/
def statusPrefix : Bytes := [0x55, 0x04, 0x01]
/-- Prefix of the EraseFlash request (R62). -/
def eraseFlashPrefix : Bytes := [0x55, 0x03, 0x00, 0x00, 0x00, 0x03]
/-- Prefix of the EraseRam request (R62). -/
def eraseRamPrefix : Bytes := [0x55, 0x03, 0x01, 0x00, 0x00, 0x03]
/-- Prefix of the WriteFlashBegin frame (R62). -/
def wfBeginPrefix : Bytes := [0x55, 0x00, 0x02, 0x00, 0x00, 0x00, 0x03, 0x00, 0x05]
/-- Prefix of a WriteFlashPacket frame (R63). -/
def wfPacketPrefix : Bytes := [0x55, 0x01, 0x00]

/-- The "frame_match" and "frame_mask" columns of the opcode table, byte 0 first (R76); `none` where the row has
none. -/
def framePattern : Instr → Option (Bytes × Bytes)
  | .encInfo => some ([0x55, 0x04, 0x01] ++ List.replicate 67 0x00, List.replicate 70 0xFF)
  | .encStatus => some ([0x55, 0x04, 0x01] ++ List.replicate 67 0x00, List.replicate 70 0xFF)
  | .encEraseFlash => some ([0x55, 0x03, 0x00, 0x00, 0x00, 0x03] ++ List.replicate 64 0x00, List.replicate 70 0xFF)
  | .encEraseRam => some ([0x55, 0x03, 0x01, 0x00, 0x00, 0x03] ++ List.replicate 64 0x00, List.replicate 70 0xFF)
  | .encWfBegin =>
    some ([0x55, 0x00, 0x02, 0x00, 0x00, 0x00, 0x03, 0x00, 0x05] ++ List.replicate 61 0x00, List.replicate 70 0xFF)
  | .encWfPacket _ _ =>
    some ([0x55, 0x01, 0x00] ++ List.replicate 67 0x00, [0xFF, 0xFF, 0xFF] ++ List.replicate 67 0x00)
  | .crcInit => none
  | .crcFeed _ => none
  | .crcRead => none
  | .frameEnc _ => none
  | .encWrPacket _ => none
  | .encRdFlash _ => none
  | .encRdRam _ => none
  | .frameVal _ => none
  | .hdrDec _ => none
  | .lutManuf _ => none
  | .lutOldlic _ => none
  | .lutNewlic _ _ => none
  | .lutCart _ => none
  | .licRes _ _ _ => none

/-- `body & mask == matched`, byte by byte (R76). -/
def matchesPattern (body : Bytes) (p : Bytes × Bytes) : Bool :=
  List.zipWith (fun b m => b &&& m) body p.2 == p.1

end Sys2Proof
end

