-- ==== Sys2Proof/Machine/FrameCodec.lean ====
section
/-! DEFINITION. The frame codec: the generic encoder, the command encoders and the validator (42_frame_codec.md
R151 to R161). -/

namespace Sys2Proof.Machine

variable {ν : Type}

/-- FRAME.ENC s (R151). -/
def execFrameEnc (b : Bytes) (s : State.Of ν) : OutcomeOf ν :=
  if b.length > Config.bodyLen then raiseError (.overlength b.length Config.bodyLen) s
  else finish (.frame (commandFrame b)) s

/-- ENC.INFO (R152). -/
def execEncInfo (s : State.Of ν) : OutcomeOf ν := finish (.frame (commandFrame infoPrefix)) s

/-- ENC.STATUS (R153). -/
def execEncStatus (s : State.Of ν) : OutcomeOf ν := finish (.frame (commandFrame statusPrefix)) s

/-- ENC.ERASE_FLASH (R154). -/
def execEncEraseFlash (s : State.Of ν) : OutcomeOf ν := finish (.frame (commandFrame eraseFlashPrefix)) s

/-- ENC.ERASE_RAM (R155). -/
def execEncEraseRam (s : State.Of ν) : OutcomeOf ν := finish (.frame (commandFrame eraseRamPrefix)) s

/-- ENC.WF_BEGIN (R156). -/
def execEncWfBegin (s : State.Of ν) : OutcomeOf ν := finish (.frame (commandFrame wfBeginPrefix)) s

/-- The bound of the global packet index: 2^24, from an 8-bit packet index and a 16-bit page index (R157, R224). -/
def packetLimit : Nat := 2 ^ (Config.pktIdxBits + Config.pageBits)

/-- The packet-index byte P = g mod 256 (R64). -/
def packetIndex (g : Nat) : Byte := BitVec.ofNat 8 (g % 2 ^ Config.pktIdxBits)

/-- The page index G = g div 256 (R64). -/
def pageIndex (g : Nat) : U16 := BitVec.ofNat 16 (g / 2 ^ Config.pktIdxBits)

/-- The body of a WriteFlashPacket frame (R63, R64). -/
def packetBody (g : Nat) (c : Bytes) : Bytes :=
  wfPacketPrefix ++ [packetIndex g] ++ be16Bytes (pageIndex g) ++ padTo Config.chunkLen c

/-- ENC.WF_PACKET g, c (R157). The chunk's length is checked before the index (R228). -/
def execEncWfPacket (g : Nat) (c : Bytes) (s : State.Of ν) : OutcomeOf ν :=
  if c.length > Config.chunkLen then raiseError (.overlength c.length Config.chunkLen) s
  else if g ≥ packetLimit then raiseError (.indexRange g packetLimit) s
  else finish (.frame (sealBody (packetBody g c))) s

/-- ENC.WR_PACKET (R158). The operands are not examined. -/
def execEncWrPacket (_ops : List Operand) (s : State.Of ν) : OutcomeOf ν := raiseNoEncoding .writeRamPacket s

/-- ENC.RD_FLASH (R159). The operands are not examined. -/
def execEncRdFlash (_ops : List Operand) (s : State.Of ν) : OutcomeOf ν := raiseNoEncoding .readFlash s

/-- ENC.RD_RAM (R160). The operands are not examined. -/
def execEncRdRam (_ops : List Operand) (s : State.Of ν) : OutcomeOf ν := raiseNoEncoding .readRam s

/-- FRAME.VAL F (R161): the frame unchanged, or `CHECKSUM_MISMATCH`. -/
def execFrameVal (f : Bytes) (s : State.Of ν) : OutcomeOf ν :=
  withFrame 0x50 f (fun s =>
    match checksumError f with
    | some e => raiseError e s
    | none => finish (.frame f) s) s

end Sys2Proof.Machine
end

