-- ==== Sys2Proof/Machine/Lookup.lean ====
section
/-! DEFINITION. The lookup operations, the table multiplexer and the licensee resolver (40_lookup_tables.md R106
to R112). -/

namespace Sys2Proof.Machine

variable {ν : Type}

/-- LUT.MANUF code: multiplexer select 0 (R106, R107). -/
def execLutManuf (code : Byte) (s : State.Of ν) : OutcomeOf ν := finish (.resolved (resolve s.params.manufTable code)) s

/-- LUT.OLDLIC code: multiplexer select 1, without the escape rule (R106, R108). -/
def execLutOldlic (code : Byte) (s : State.Of ν) : OutcomeOf ν := finish (.resolved (resolve s.params.oldLicTable code)) s

/-- LUT.NEWLIC n1, n2: multiplexer select 2 (R106, R109). -/
def execLutNewlic (n1 n2 : Byte) (s : State.Of ν) : OutcomeOf ν :=
  finish (.resolved (resolve s.params.newLicTable (n1, n2))) s

/-- LUT.CART code: multiplexer select 3 (R106, R110). -/
def execLutCart (code : Byte) (s : State.Of ν) : OutcomeOf ν := finish (.resolved (resolve s.params.cartTypeTable code)) s

/-- LIC.RES old, n1, n2 (R111). -/
def execLicRes (old n1 n2 : Byte) (s : State.Of ν) : OutcomeOf ν :=
  finish (.licensee (resolveLicensee s.params old n1 n2).1 (resolveLicensee s.params old n1 n2).2) s

end Sys2Proof.Machine
end

