-- ==== Sys2Proof/Machine/ResponseDecoder.lean ====
section
/-! DEFINITION. The response decoder (43_response_decoder.md R180 to R200). -/

namespace Sys2Proof.Machine

variable {ν : Type}

/-- The firmware version: major = v[7:4], minor = v[3:0]; a nibble over 9 is reported as its value (R182). -/
def decodeFw (v : Byte) : Firmware := { raw := v, major := v.extractLsb' 4 4, minor := v.extractLsb' 0 4 }

/-- The title: the bytes before the first 0x00, or all of them (R189). -/
def decodeTitle (t : Bytes) : Bytes := t.takeWhile fun b => b != 0x00

/-- The destination (R195). -/
def decodeDest (v : Byte) : Dest := if v = 0x00 then .japan else if v = 0x01 then .nonJapan else .destUnknown

/-- The fields decoded in both states (R182 to R184). -/
def decodeInfo (p : Params ν) (f : Bytes) : ReaderInfo ν :=
  { fw := decodeFw (fieldByte p.respLayout f .fw)
    man := { code := fieldByte p.respLayout f .manuf
             name := resolve p.manufTable (fieldByte p.respLayout f .manuf) }
    dev := fieldByte p.respLayout f .devid }

/-- The fields decoded only in `LogoValid` (R188 to R198). -/
def decodeCart (p : Params ν) (f : Bytes) : CartridgeInfo ν :=
  let one := fieldByte p.respLayout f
  let newLic := field p.respLayout f .newlic
  let lic := resolveLicensee p (one .oldlic) (byteAt newLic 0) (byteAt newLic 1)
  { protect := one .prot
    title := decodeTitle (field p.respLayout f .title)
    cgbRaw := one .cgb
    cgb := predHolds p.cgbPred (one .cgb)
    licScheme := lic.1
    licensee := lic.2
    oldLicRaw := one .oldlic
    newLicRaw := (byteAt newLic 0, byteAt newLic 1)
    sgbRaw := one .sgb
    sgb := predHolds p.sgbPred (one .sgb)
    cartTypeCode := one .ctype
    cartType := resolve p.cartTypeTable (one .ctype)
    romSizeCode := one .romsz
    ramSizeCode := one .ramsz
    destRaw := one .dest
    dest := decodeDest (one .dest)
    maskRomVersion := one .maskver
    headerChecksum := one .hdrck
    cartChecksum := word16At (field p.respLayout f .cartck) 0 }

/-- The record of a frame whose checksum matches: the logo-valid flag selects the state (R185 to R187). -/
def decodeHeader (p : Params ν) (f : Bytes) : Header ν :=
  if predHolds p.logoValidPred (fieldByte p.respLayout f .logo) then .logoValid (decodeInfo p f) (decodeCart p f)
  else .logoInvalid (decodeInfo p f) .blank

/-- HDR.DEC F (R180): the checksum is tested before any field is read. -/
def execHdrDec (f : Bytes) (s : State.Of ν) : OutcomeOf ν :=
  withFrame 0x60 f (fun s =>
    match checksumError f with
    | some e => raiseError e s
    | none => finish (.header (decodeHeader s.params f)) s) s

end Sys2Proof.Machine
end

