-- ==== Sys2Proof/Machine/Dispatch.lean ====
section
/-! DEFINITION. One arm per operation of the opcode table (30_encoding.md R71), each a direct call of its meaning. -/

namespace Sys2Proof.Machine

def exec (i : Instr) (s : State) : Host.Outcome State Fault Refusal :=
  match i with
  -- the CRC unit
  | .crcInit => Sys2Proof.Machine.execCrcInit s
  | .crcFeed b => Sys2Proof.Machine.execCrcFeed b s
  | .crcRead => Sys2Proof.Machine.execCrcRead s
  -- the frame codec
  | .frameEnc b => Sys2Proof.Machine.execFrameEnc b s
  | .encInfo => Sys2Proof.Machine.execEncInfo s
  | .encStatus => Sys2Proof.Machine.execEncStatus s
  | .encEraseFlash => Sys2Proof.Machine.execEncEraseFlash s
  | .encEraseRam => Sys2Proof.Machine.execEncEraseRam s
  | .encWfBegin => Sys2Proof.Machine.execEncWfBegin s
  | .encWfPacket g c => Sys2Proof.Machine.execEncWfPacket g c s
  | .encWrPacket ops => Sys2Proof.Machine.execEncWrPacket ops s
  | .encRdFlash ops => Sys2Proof.Machine.execEncRdFlash ops s
  | .encRdRam ops => Sys2Proof.Machine.execEncRdRam ops s
  | .frameVal f => Sys2Proof.Machine.execFrameVal f s
  -- the response decoder
  | .hdrDec f => Sys2Proof.Machine.execHdrDec f s
  -- the lookup-table multiplexer
  | .lutManuf code => Sys2Proof.Machine.execLutManuf code s
  | .lutOldlic code => Sys2Proof.Machine.execLutOldlic code s
  | .lutNewlic n1 n2 => Sys2Proof.Machine.execLutNewlic n1 n2 s
  | .lutCart code => Sys2Proof.Machine.execLutCart code s
  | .licRes old n1 n2 => Sys2Proof.Machine.execLicRes old n1 n2 s

end Sys2Proof.Machine
end

