-- ==== Sys2Proof/Machine/Engine.lean ====
section
/-! DEFINITION. The engine: how the next event of the host is served (10_state.md R20, R24; 20_memory.md R49, R52;
70_reset_and_hazards.md R251, R252). It is written once for every name type `ν` and every way `run` of running an
operation. -/

namespace Sys2Proof.Machine

variable {ν : Type}

/-- Serve one request: run the operation it decodes to, report a reserved selector (R72), or do not accept it (R73). -/
def serveRequest (run : Instr → State.Of ν → OutcomeOf ν) (r : Request) (s : State.Of ν) : OutcomeOf ν :=
  match decode r with
  | .ok i => run i s
  | .reserved o => raiseReserved o s
  | .illTyped o => .refused (.illTypedRequest o)

/-- Serve the host's next event. With none, nothing happens: "Nothing happens in the block between operations" (R229). -/
def serveNext (run : Instr → State.Of ν → OutcomeOf ν) (s : State.Of ν) : OutcomeOf ν :=
  match s.pending with
  | [] => .next s
  | .reset :: rest => .next (resetBlock { s with pending := rest })
  | .issue r :: rest => serveRequest run r { s with pending := rest }

/-- Only an instance whose parameters are well-formed is made: "An instance that breaks either is refused" (R252, R47). -/
def stepWith [DecidableEq ν] (nm : FixedNames ν) (run : Instr → State.Of ν → OutcomeOf ν) (s : State.Of ν) :
    OutcomeOf ν :=
  if instWf nm s.params then serveNext run s else .refused .illFormedInst

/-- One step of the machine behind Host/Core.lean: names are those of `Name`, and operations run by `exec`. -/
def engineStep (s : State) : Outcome := stepWith Config.fixedNames exec s

/-- The host issues a request before all others. -/
def issueFirst (r : Request) (s : State.Of ν) : State.Of ν := { s with pending := .issue r :: s.pending }

end Sys2Proof.Machine
end

