-- ==== Sys2Proof/Machine/Step.lean ====
section
/-! DEFINITION. One step of the machine: the next event of the host, as one atomic step (20_memory.md R49). -/

namespace Sys2Proof.Machine

/-- One step. -/
def step : State → Host.Outcome State Fault Refusal := engineStep

/-- The state in which the host's next request is the one whose bits are `w`: the block fetches nothing (R24),
so this stands for the host issuing it (log 3). -/
def State.withFetchWord (s : State) (nbits w : Nat) : State := issueFirst (requestOfTableWord nbits w) s

end Sys2Proof.Machine
end

