-- ==== Sys2Proof/Machine/HostContract.lean ====
section
/-! DEFINITION. What the spec says of the host's operation sequences: the pseudo-operations (30_encoding.md R75)
and the chunk operands of a write-flash session (42_frame_codec.md R164). The block keeps none of it
(10_state.md R30). -/

namespace Sys2Proof.Machine

/-- `CRC.SPAN s` (R75). -/
def crcSpan (s : Bytes) : List Instr := .crcInit :: s.map .crcFeed ++ [.crcRead]

/-- `CRC.FEEDN b, n` (R75). -/
def crcFeedN (b : Byte) (n : Nat) : List Instr := List.replicate n (.crcFeed b)

/-- `ceil_div(a, b) = (a + b - 1) div b` (R10). -/
def ceilDiv (a b : Nat) : Nat := (a + b - 1) / b

/-- How many WriteFlashPacket frames an image of `len` bytes takes (R164). -/
def packetCount (len : Nat) : Nat := ceilDiv len Config.chunkLen

/-- `c_g = image[64·g : min(64·g + 64, L))` (R164). -/
def chunkOf (image : Bytes) (g : Nat) : Bytes := memRead image (Config.chunkLen * g) Config.chunkLen

/-- The operations the host issues to stream an image, in its order (R164). -/
def streamImage (image : Bytes) : List Instr :=
  (List.range (packetCount image.length)).map fun g => .encWfPacket g (chunkOf image g)

end Sys2Proof.Machine
end

