-- ==== Sys2Proof/Machine/Assembler.lean ====
section
/-! DEFINITION. The notation for test programs (30_encoding.md R74, R75): the parts of a line, the text it is
written as, and the requests it stands for. No behaviour of the block depends on it (D6). -/

namespace Sys2Proof.Machine

variable {ν : Type}

/-- A byte-sequence literal: `h"55 04 01"`, `zeros(n)` and `++` (R74). -/
inductive SeqTerm where
  | hex (s : Bytes)
  | zeros (n : Nat)
  | append (a b : SeqTerm)
deriving DecidableEq, Repr

/-- One operand of a line (R74): a byte, a natural, a byte sequence, a frame, or a named result. -/
inductive AsmOperand where
  | byte (b : Byte)
  | nat (n : Nat)
  | seq (t : SeqTerm)
  | frame (f : Bytes)
  | named (x : String)
deriving DecidableEq, Repr

/-- One line: an optional name for the result, the mnemonic, its operands and an optional comment (R74). -/
structure AsmLine where
  name : Option String
  mnemonic : String
  operands : List AsmOperand
  comment : Option String
deriving DecidableEq, Repr

/-- The bytes a sequence literal stands for (R74). -/
def seqBytes : SeqTerm → Bytes
  | .hex s => s
  | .zeros n => zeros n
  | .append a b => seqBytes a ++ seqBytes b

/-! ## The text of a line -/

/-- One hexadecimal digit. -/
def hexDigit (n : Nat) : Char := if n < 10 then Char.ofNat (48 + n) else Char.ofNat (55 + n)

/-- The two hexadecimal digits of a byte. -/
def hexByte (b : Byte) : String := String.ofList [hexDigit (b.toNat / 16), hexDigit (b.toNat % 16)]

/-- Bytes in hexadecimal, separated by spaces. -/
def hexBytes (s : Bytes) : String := " ".intercalate (s.map hexByte)

/-- The text of a sequence literal (R74). -/
def seqText : SeqTerm → String
  | .hex s => "h\"" ++ hexBytes s ++ "\""
  | .zeros n => "zeros(" ++ toString n ++ ")"
  | .append a b => seqText a ++ " ++ " ++ seqText b

/-- The text of an operand (R74). -/
def operandText : AsmOperand → String
  | .byte b => "0x" ++ hexByte b
  | .nat n => toString n
  | .seq t => seqText t
  | .frame f => "frame\"" ++ hexBytes f ++ "\""
  | .named x => x

/-- The text of a line (R74): `name = OP a, b ; comment`. -/
def lineText (l : AsmLine) : String :=
  (match l.name with | some x => x ++ " = " | none => "")
    ++ l.mnemonic
    ++ (if l.operands.isEmpty then "" else " " ++ ", ".intercalate (l.operands.map operandText))
    ++ (match l.comment with | some c => " ; " ++ c | none => "")

/-! ## The requests of a line -/

/-- A named result as an operand: a frame. Results of other types are no operand of any operation (R71). -/
def resultOperand : Result ν → Option Operand
  | .frame f => some (.bytes f)
  | .word _ => none
  | .none => none
  | .header _ => none
  | .resolved _ => none
  | .licensee _ _ => none

/-- The operand of a request, given the results named so far. -/
def asmOperand (env : List (String × Result ν)) : AsmOperand → Option Operand
  | .byte b => some (.byte b)
  | .nat n => some (.nat n)
  | .seq t => some (.bytes (seqBytes t))
  | .frame f => some (.bytes f)
  | .named x => (env.lookup x).bind resultOperand

/-- The operands of a request, in order. -/
def asmOperands (env : List (String × Result ν)) : List AsmOperand → Option (List Operand)
  | [] => some []
  | a :: t =>
    match asmOperand env a, asmOperands env t with
    | some o, some os => some (o :: os)
    | _, _ => none

/-- The requests for a mnemonic with operands: a row of the opcode table, the pseudo-operations `CRC.SPAN` and
`CRC.FEEDN` (R75), or a selector written as such (`OPSEL 0x90`, program P2). -/
def requestsOf (mnemonic : String) (ops : List Operand) : Option (List Request) :=
  match opcodeTable.find? fun row => row.mnemonic == mnemonic with
  | some row => some [⟨row.matched, ops⟩]
  | none =>
    if mnemonic = "CRC.SPAN" then
      match ops with
      | [.bytes s] => some ((crcSpan s).map encode)
      | _ => none
    else if mnemonic = "CRC.FEEDN" then
      match ops with
      | [.byte b, .nat n] => some ((crcFeedN b n).map encode)
      | _ => none
    else if mnemonic = "OPSEL" then
      match ops with
      | .byte b :: rest => some [⟨b, rest⟩]
      | _ => none
    else none

/-- The requests a line stands for, given the results named so far. -/
def assemble (env : List (String × Result ν)) (l : AsmLine) : Option (List Request) :=
  (asmOperands env l.operands).bind (requestsOf l.mnemonic)

end Sys2Proof.Machine
end

