-- ==== Sys2Proof/Machine/Block.lean ====
section
/-! DEFINITION. The block over any name type (00_scope.md R7: a model takes `Name` as an argument), and the
renaming of names. `exec` and `step` are the block at `Name`; the meanings are the same definitions. -/

namespace Sys2Proof.Machine

variable {ν ν' : Type}

/-- Run an operation, whatever the names are. -/
def operate (i : Instr) (s : State.Of ν) : OutcomeOf ν :=
  match i with
  | .crcInit => execCrcInit s
  | .crcFeed b => execCrcFeed b s
  | .crcRead => execCrcRead s
  | .frameEnc b => execFrameEnc b s
  | .encInfo => execEncInfo s
  | .encStatus => execEncStatus s
  | .encEraseFlash => execEncEraseFlash s
  | .encEraseRam => execEncEraseRam s
  | .encWfBegin => execEncWfBegin s
  | .encWfPacket g c => execEncWfPacket g c s
  | .encWrPacket ops => execEncWrPacket ops s
  | .encRdFlash ops => execEncRdFlash ops s
  | .encRdRam ops => execEncRdRam ops s
  | .frameVal f => execFrameVal f s
  | .hdrDec f => execHdrDec f s
  | .lutManuf code => execLutManuf code s
  | .lutOldlic code => execLutOldlic code s
  | .lutNewlic n1 n2 => execLutNewlic n1 n2 s
  | .lutCart code => execLutCart code s
  | .licRes old n1 n2 => execLicRes old n1 n2 s

/-- One step of the block, given `Name` and which of its values are "nintendo" and "EA" (R7). -/
def blockStep [DecidableEq ν] (nm : FixedNames ν) : State.Of ν → OutcomeOf ν := stepWith nm operate

/-! ## Renaming -/

/-- The fixed names under a renaming. -/
def renameFixed (ρ : ν → ν') (nm : FixedNames ν) : FixedNames ν' := { nintendo := ρ nm.nintendo, ea := ρ nm.ea }

/-- A table with its names renamed: the codes stay. -/
def renameTable {κ : Type} (ρ : ν → ν') (t : CodeTable κ ν) : CodeTable κ ν' := t.map fun e => (e.1, ρ e.2)

/-- The parameters with their names renamed. -/
def renameParams (ρ : ν → ν') (p : Params ν) : Params ν' :=
  { manufTable := renameTable ρ p.manufTable
    oldLicTable := renameTable ρ p.oldLicTable
    newLicTable := renameTable ρ p.newLicTable
    cartTypeTable := renameTable ρ p.cartTypeTable
    respLayout := p.respLayout
    logoValidPred := p.logoValidPred
    cgbPred := p.cgbPred
    sgbPred := p.sgbPred }

/-- A lookup's result renamed: `Unknown` is no name and stays (R12). -/
def renameResolved (ρ : ν → ν') : Resolved ν → Resolved ν'
  | .known n => .known (ρ n)
  | .unknown => .unknown

/-- The fields decoded in both states, renamed. -/
def renameInfo (ρ : ν → ν') (x : ReaderInfo ν) : ReaderInfo ν' :=
  { fw := x.fw, man := { code := x.man.code, name := renameResolved ρ x.man.name }, dev := x.dev }

/-- The fields decoded only in `LogoValid`, renamed: the licensee and the cartridge type are names. -/
def renameCart (ρ : ν → ν') (x : CartridgeInfo ν) : CartridgeInfo ν' :=
  { protect := x.protect, title := x.title, cgbRaw := x.cgbRaw, cgb := x.cgb, licScheme := x.licScheme
    licensee := renameResolved ρ x.licensee, oldLicRaw := x.oldLicRaw, newLicRaw := x.newLicRaw, sgbRaw := x.sgbRaw
    sgb := x.sgb, cartTypeCode := x.cartTypeCode, cartType := renameResolved ρ x.cartType, romSizeCode := x.romSizeCode
    ramSizeCode := x.ramSizeCode, destRaw := x.destRaw, dest := x.dest, maskRomVersion := x.maskRomVersion
    headerChecksum := x.headerChecksum, cartChecksum := x.cartChecksum }

/-- A reply renamed. -/
def renameReply (ρ : ν → ν') : Reply ν → Reply ν'
  | .ok .none => .ok .none
  | .ok (.word v) => .ok (.word v)
  | .ok (.frame f) => .ok (.frame f)
  | .ok (.header (.logoInvalid x m)) => .ok (.header (.logoInvalid (renameInfo ρ x) m))
  | .ok (.header (.logoValid x c)) => .ok (.header (.logoValid (renameInfo ρ x) (renameCart ρ c)))
  | .ok (.resolved r) => .ok (.resolved (renameResolved ρ r))
  | .ok (.licensee sch r) => .ok (.licensee sch (renameResolved ρ r))
  | .error e => .error e

/-- A state renamed. -/
def renameState (ρ : ν → ν') (s : State.Of ν) : State.Of ν' :=
  { crc := s.crc, params := renameParams ρ s.params, pending := s.pending, returned := s.returned.map (renameReply ρ) }

/-- An outcome renamed: faults and refusals hold no name. -/
def renameOutcome (ρ : ν → ν') : OutcomeOf ν → OutcomeOf ν'
  | .next s => .next (renameState ρ s)
  | .fault r => .fault r
  | .refused r => .refused r

end Sys2Proof.Machine
end

