-- ==== Sys2Proof/Safety.lean ====
section
/-! DEFINITION. What counts as a good state and a safe run, in the terms the statements use. -/

namespace Sys2Proof.Machine

/-- A frame is sealed: 72 bytes, with the checksum field of R61. -/
def Sealed (f : Bytes) : Prop := f.length = 72 ∧ crc16x (f.take 70) = be16 (f.getD 70 0) (f.getD 71 0)

/-- A reply holds no frame but a sealed one (R61, R163). -/
def ReplySealed : Reply Name → Prop
  | .ok (.frame f) => Sealed f
  | _ => True

/-- The invariant of the machine: the parameters make an instance (R252), and every frame the host has been
given is sealed (R61, R163). -/
def Inv (s : State) : Prop := paramsWf s.params = true ∧ ∀ r ∈ s.returned, ReplySealed r

/-- The interface accepts an event (R73): a reset, or a request whose operands are those of its selector. -/
def Accepted : HostEvent → Prop
  | .reset => True
  | .issue r => ∀ o, decode r ≠ .illTyped o

/-- A state from which the block serves everything the host has issued. -/
def Ready (s : State) : Prop := paramsWf s.params = true ∧ ∀ e ∈ s.pending, Accepted e

/-! ## Runs -/

/-- Run operations one after another, stopping at the first that does not answer a next state (R52). -/
def execAll : List Instr → State → Outcome
  | [], s => .next s
  | i :: is, s =>
    match exec i s with
    | .next t => execAll is t
    | .fault r => .fault r
    | .refused r => .refused r

/-- The bytes that the CRC.FEED operations of a sequence feed, in order (R137). -/
def fedBytes (is : List Instr) : Bytes :=
  is.filterMap fun i => match i with
    | .crcFeed b => some b
    | _ => none

/-- What one event of the host does to `CRC` (R22, R250): only a reset, CRC.INIT and CRC.FEED write it. -/
def crcEffect (c : U16) : HostEvent → U16
  | .reset => 0x0000
  | .issue r =>
    match decode r with
    | .ok .crcInit => 0x0000
    | .ok (.crcFeed b) => crcStep c b
    | _ => c

/-- What one event gives the host when it is served alone, with these parameters and this `CRC`. -/
def repliesAlone (p : Params Name) (c : U16) (e : HostEvent) : List (Reply Name) :=
  match step { crc := c, params := p, pending := [e], returned := [] } with
  | .next t => t.returned
  | .fault _ => []
  | .refused _ => []

/-- What the events give the host one after another, the first event first: each sees the `CRC` that the events
before it left (R52). -/
def repliesInOrder (p : Params Name) : U16 → List HostEvent → List (Reply Name)
  | _, [] => []
  | c, e :: es => repliesAlone p c e ++ repliesInOrder p (crcEffect c e) es

/-- Whether an event is an operation, which returns a result to the host (R20). -/
def isIssue : HostEvent → Bool
  | .issue _ => true
  | .reset => false

/-! ## The spec's own words, for the statements

Written from the spec's text apart from the model's definitions, so that a statement compares two things. -/

/-- The reserved selectors, as R72 lists them. -/
def ReservedSelector (o : Byte) : Prop :=
  let n := o.toNat
  (0x01 ≤ n ∧ n ≤ 0x0F) ∨ (0x11 ≤ n ∧ n ≤ 0x1F) ∨ (0x21 ≤ n ∧ n ≤ 0x2F) ∨ (0x31 ≤ n ∧ n ≤ 0x3F) ∨
    (0x49 ≤ n ∧ n ≤ 0x4F) ∨ (0x51 ≤ n ∧ n ≤ 0x5F) ∨ (0x61 ≤ n ∧ n ≤ 0x6F) ∨ (0x74 ≤ n ∧ n ≤ 0x7F) ∨
    (0x81 ≤ n ∧ n ≤ 0xFF)

/-- One round of the loop of R131, on numbers. -/
def specRound (c : Nat) : Nat :=
  if c / 2 ^ 15 % 2 = 1 then ((c <<< 1) ^^^ 0x1021) &&& 0xFFFF else (c <<< 1) &&& 0xFFFF

/-- `crc_step(c, b)` of R131, on numbers. -/
def specCrcStep (c b : Nat) : Nat := Nat.repeat specRound 8 (c ^^^ (b <<< 8))

/-- The number whose bits are the bytes of `s`, the first byte the most significant. -/
def bytesNat (s : Bytes) : Nat := s.foldl (fun n b => n * 256 + b.toNat) 0

/-- The sum over GF(2) of the generator x^16 + x^12 + x^5 + 1 (R130) times x^k, for the listed k. -/
def generatorSum (ks : List Nat) : Nat := ks.foldl (fun n k => n ^^^ (0x11021 <<< k)) 0

/-- The sequence with bit k of its bits flipped: bit k mod 8 of byte k div 8 (R139). -/
def flipBit (f : Bytes) (k : Nat) : Bytes := f.modify (k / 8) fun b => b ^^^ (1#8 <<< (k % 8))

/-- The table `T[i] = crc_step(0x0000, i)`, as 95_test_vectors.md lists it (R138 (e)). -/
def specCrcTable : List U16 :=
  [0x0000, 0x1021, 0x2042, 0x3063, 0x4084, 0x50A5, 0x60C6, 0x70E7,
    0x8108, 0x9129, 0xA14A, 0xB16B, 0xC18C, 0xD1AD, 0xE1CE, 0xF1EF]
  ++ [0x1231, 0x0210, 0x3273, 0x2252, 0x52B5, 0x4294, 0x72F7, 0x62D6,
    0x9339, 0x8318, 0xB37B, 0xA35A, 0xD3BD, 0xC39C, 0xF3FF, 0xE3DE]
  ++ [0x2462, 0x3443, 0x0420, 0x1401, 0x64E6, 0x74C7, 0x44A4, 0x5485,
    0xA56A, 0xB54B, 0x8528, 0x9509, 0xE5EE, 0xF5CF, 0xC5AC, 0xD58D]
  ++ [0x3653, 0x2672, 0x1611, 0x0630, 0x76D7, 0x66F6, 0x5695, 0x46B4,
    0xB75B, 0xA77A, 0x9719, 0x8738, 0xF7DF, 0xE7FE, 0xD79D, 0xC7BC]
  ++ [0x48C4, 0x58E5, 0x6886, 0x78A7, 0x0840, 0x1861, 0x2802, 0x3823,
    0xC9CC, 0xD9ED, 0xE98E, 0xF9AF, 0x8948, 0x9969, 0xA90A, 0xB92B]
  ++ [0x5AF5, 0x4AD4, 0x7AB7, 0x6A96, 0x1A71, 0x0A50, 0x3A33, 0x2A12,
    0xDBFD, 0xCBDC, 0xFBBF, 0xEB9E, 0x9B79, 0x8B58, 0xBB3B, 0xAB1A]
  ++ [0x6CA6, 0x7C87, 0x4CE4, 0x5CC5, 0x2C22, 0x3C03, 0x0C60, 0x1C41,
    0xEDAE, 0xFD8F, 0xCDEC, 0xDDCD, 0xAD2A, 0xBD0B, 0x8D68, 0x9D49]
  ++ [0x7E97, 0x6EB6, 0x5ED5, 0x4EF4, 0x3E13, 0x2E32, 0x1E51, 0x0E70,
    0xFF9F, 0xEFBE, 0xDFDD, 0xCFFC, 0xBF1B, 0xAF3A, 0x9F59, 0x8F78]
  ++ [0x9188, 0x81A9, 0xB1CA, 0xA1EB, 0xD10C, 0xC12D, 0xF14E, 0xE16F,
    0x1080, 0x00A1, 0x30C2, 0x20E3, 0x5004, 0x4025, 0x7046, 0x6067]
  ++ [0x83B9, 0x9398, 0xA3FB, 0xB3DA, 0xC33D, 0xD31C, 0xE37F, 0xF35E,
    0x02B1, 0x1290, 0x22F3, 0x32D2, 0x4235, 0x5214, 0x6277, 0x7256]
  ++ [0xB5EA, 0xA5CB, 0x95A8, 0x8589, 0xF56E, 0xE54F, 0xD52C, 0xC50D,
    0x34E2, 0x24C3, 0x14A0, 0x0481, 0x7466, 0x6447, 0x5424, 0x4405]
  ++ [0xA7DB, 0xB7FA, 0x8799, 0x97B8, 0xE75F, 0xF77E, 0xC71D, 0xD73C,
    0x26D3, 0x36F2, 0x0691, 0x16B0, 0x6657, 0x7676, 0x4615, 0x5634]
  ++ [0xD94C, 0xC96D, 0xF90E, 0xE92F, 0x99C8, 0x89E9, 0xB98A, 0xA9AB,
    0x5844, 0x4865, 0x7806, 0x6827, 0x18C0, 0x08E1, 0x3882, 0x28A3]
  ++ [0xCB7D, 0xDB5C, 0xEB3F, 0xFB1E, 0x8BF9, 0x9BD8, 0xABBB, 0xBB9A,
    0x4A75, 0x5A54, 0x6A37, 0x7A16, 0x0AF1, 0x1AD0, 0x2AB3, 0x3A92]
  ++ [0xFD2E, 0xED0F, 0xDD6C, 0xCD4D, 0xBDAA, 0xAD8B, 0x9DE8, 0x8DC9,
    0x7C26, 0x6C07, 0x5C64, 0x4C45, 0x3CA2, 0x2C83, 0x1CE0, 0x0CC1]
  ++ [0xEF1F, 0xFF3E, 0xCF5D, 0xDF7C, 0xAF9B, 0xBFBA, 0x8FD9, 0x9FF8,
    0x6E17, 0x7E36, 0x4E55, 0x5E74, 0x2E93, 0x3EB2, 0x0ED1, 0x1EF0]

end Sys2Proof.Machine
end

