-- ==== Sys2Proof/Certificates/Slice0/Obligations.lean ====
section
/-! DEFINITION. The statements about the block, for the provers. In each, `{ s with returned := s.returned ++
[r] }` is the state in which the host has been given the reply `r` and nothing else differs: `CRC`, the
parameters and what the host has still to issue are as before. That replies are kept in a list, and that the
host's events wait in one, is the model's choice (log 4). Many rules are marked by the spec as its own decision
or its own inference: a statement that rests on one has basis 'derived', and its docstring names the decision
D<n> of 92_eei_decisions.md or says that the spec derives it. -/

open Sys2Proof Sys2Proof.Machine

/-! ## Reset and the engine -/

/-- R31: at reset `CRC` is 0x0000, and a reset event puts it there and leaves the parameters and everything else
as they are. The queue the event stands in is the model's (log 4). The value is the decision D28. -/
def Obligations.ResetClearsCrcOnly : Prop :=
  core.reset.crc = 0x0000 ∧
  ∀ (s : State) (rest : List HostEvent), paramsWf s.params = true → s.pending = .reset :: rest →
    step s = .next { s with crc := 0x0000, pending := rest }

/-- The invariant holds at reset. Its first part is about the instance the model names (log 1). -/
def Obligations.ResetMeetsInvariant : Prop := Inv State.reset

/-- A step serves the issued request: when it decodes to `i`, the step is `exec i` in the state with the request
taken. The request interface is the decisions D1 and D5; the queue is the model's (log 4). -/
def Obligations.StepRunsTheDecodedOperation : Prop :=
  ∀ (s : State) (r : Request) (rest : List HostEvent) (i : Instr),
    paramsWf s.params = true → s.pending = .issue r :: rest → decode r = .ok i →
      step s = exec i { s with pending := rest }

/-- R72, R228: a reserved selector, as R72 lists them, gives the host `UNSUPPORTED(opsel)`, whatever its
operands are, and changes no state. The selectors are the decision D5, the order D8, and that the error is a
returned result is the model's reading (log 6). -/
def Obligations.ReservedSelectorReturnsUnsupported : Prop :=
  ∀ (s : State) (o : Byte) (ops : List Operand) (rest : List HostEvent),
    paramsWf s.params = true → s.pending = .issue ⟨o, ops⟩ :: rest → ReservedSelector o →
      step s = .next { s with pending := rest, returned := s.returned ++ [.error (.unsupportedOpsel o)] }

/-- R229: with no event of the host, nothing happens. The rule is the decision D29; that the host may have
issued nothing is the model's (log 4). -/
def Obligations.IdleStepChangesNothing : Prop :=
  ∀ s : State, paramsWf s.params = true → s.pending = [] → step s = .next s

/-- R252, R66: an instance is refused when a field of its layout leaves [0,70), or when one of its tables breaks
an entry that the source fixes. The decisions D9 and D19; that the refusal comes at each step is the model's
(log 5). -/
def Obligations.BrokenInstanceIsRefused : Prop :=
  ∀ s : State,
    ((∃ k, fieldOff s.params.respLayout k + fieldWidth k > 70) ∨
      s.params.manufTable.lookup 0x00 ≠ none ∨
      s.params.oldLicTable.lookup 0x01 ≠ some "nintendo" ∨
      s.params.newLicTable.lookup (0x31, 0x33) ≠ some "EA") →
    step s = .refused .illFormedInst

/-- D26: FRAME.VAL and HDR.DEC with an operand that is not 72 bytes are refused at the interface, in a step and
in `exec`. The refusal's name is the model's (log 5). -/
def Obligations.FrameOperandOfOtherLengthIsRefused : Prop :=
  ∀ (s : State) (f : Bytes) (rest : List HostEvent), f.length ≠ 72 →
    exec (.frameVal f) s = .refused (.illTypedRequest 0x50) ∧
    exec (.hdrDec f) s = .refused (.illTypedRequest 0x60) ∧
    (paramsWf s.params = true → s.pending = .issue ⟨0x50, [.bytes f]⟩ :: rest →
      step s = .refused (.illTypedRequest 0x50)) ∧
    (paramsWf s.params = true → s.pending = .issue ⟨0x60, [.bytes f]⟩ :: rest →
      step s = .refused (.illTypedRequest 0x60))

/-- A step is refused in exactly two cases: the instance is ill-formed, or the next request's operands are not
those of its selector. The decisions D9, D19 and D26, in the model's form (log 5). -/
def Obligations.StepIsRefusedOnlyAtTheBoundary : Prop :=
  ∀ (s : State) (x : Refusal),
    step s = .refused x ↔
      (paramsWf s.params = false ∧ x = .illFormedInst) ∨
      (paramsWf s.params = true ∧ ∃ r rest o,
        s.pending = .issue r :: rest ∧ decode r = .illTyped o ∧ x = .illTypedRequest o)

/-- R232, R231: from a state whose instance is well-formed and whose requests the interface accepts, every step
completes, and the next state is such a state again, whatever error was returned. The rules are the decision
D29. -/
def Obligations.ReadyStateStepsToReadyState : Prop :=
  ∀ s : State, Ready s → ∃ t, step s = .next t ∧ Ready t

/-- R52: all that the host issued is served in as many steps, one event at a time and the first issued first: the
replies are those of the events in order, each event seeing the `CRC` that the events before it left, and each
operation gives exactly one reply. The order is the decision D30; the queue and the list of replies are the model's
(log 4). -/
def Obligations.EveryIssuedOperationGetsOneReply : Prop :=
  ∀ s : State, Ready s → ∃ t, core.run s.pending.length s = .next t ∧ t.pending = [] ∧ t.params = s.params ∧
    t.returned = s.returned ++ repliesInOrder s.params s.crc s.pending ∧
    (repliesInOrder s.params s.crc s.pending).length = s.pending.countP isIssue

/-- R22, R52: after all that the host issued is served, `CRC` is what the resets and the CRC.INIT and CRC.FEED
operations among it made of the value before, in order. The register is the decision D3, the order D30, the
reset value D28. -/
def Obligations.CrcIsTheFoldOfTheHostsEvents : Prop :=
  ∀ (s t : State), Ready s → core.run s.pending.length s = .next t → t.crc = s.pending.foldl crcEffect s.crc

/-- The invariant: the instance stays well-formed (R113), and every frame the host is given has 72 bytes and the
checksum of R61. Every step keeps it. That replies are kept is the model's (log 4). -/
def Obligations.EveryStepKeepsInvariant : Prop :=
  ∀ (s t : State), Inv s → step s = .next t → Inv t

/-- R113, R26, R31: no step changes the tables, the layout or the predicates: no operation, no error and no reset.
That the layout and the predicates are fixed is the decision D32, that a reset leaves them the decision D28, and that
the parameters are held in the state is the model's (log 8). -/
def Obligations.NoStepChangesTheParameters : Prop :=
  ∀ (s t : State), step s = .next t → t.params = s.params

/-! ## Encoding -/

/-- Decoding what the encoder writes gives the instruction back, for every well-formed instruction. The selector
encoding is the decision D5. -/
def Obligations.DecodeOfEncodeIsTheInstruction : Prop := ∀ i : Instr, i.wf = true → decode (encode i) = .ok i

/-- The other direction: a request that decodes is the encoding of a well-formed instruction, so each request
has one meaning. The selector encoding is the decision D5, the length of a frame operand D26. -/
def Obligations.DecodedRequestIsTheEncoding : Prop :=
  ∀ (r : Request) (i : Instr), decode r = .ok i → i.wf = true ∧ encode i = r

/-- R72, R76: a selector selects a row of the opcode table exactly when R72 does not reserve it, and the decoder
reports it as reserved exactly when R72 does, whatever the operands are. The decision D5. -/
def Obligations.SelectorsAreReservedAsListed : Prop :=
  ∀ (o : Byte) (ops : List Operand),
    (opcodeRow o = none ↔ ReservedSelector o) ∧ (decode ⟨o, ops⟩ = .reserved o ↔ ReservedSelector o)

/-- A few requests written out from the selector map of R71 decode to the operations they stand for, and a reserved
selector is reported (decision D5). That CRC.READ with an operand is ill-typed is the model's choice (log 5). -/
def Obligations.WrittenRequestsDecode : Prop :=
  decode ⟨0x10, [.byte 0x55]⟩ = .ok (.crcFeed 0x55) ∧
  decode ⟨0x45, [.nat 256, .bytes [0xFF]]⟩ = .ok (.encWfPacket 256 [0xFF]) ∧
  decode ⟨0x46, [.byte 0x01, .nat 7]⟩ = .ok (.encWrPacket [.byte 0x01, .nat 7]) ∧
  decode ⟨0x72, [.byte 0x31, .byte 0x33]⟩ = .ok (.lutNewlic 0x31 0x33) ∧
  decode ⟨0x80, [.byte 0x33, .byte 0x31, .byte 0x34]⟩ = .ok (.licRes 0x33 0x31 0x34) ∧
  decode ⟨0x20, [.byte 0x00]⟩ = .illTyped 0x20 ∧
  decode ⟨0x74, []⟩ = .reserved 0x74

/-- R76: every frame that ENC.INFO to ENC.WF_PACKET return is an instance of its opcode-table row's pattern. The
table's conventions are the decision D5. -/
def Obligations.EncodedFramesMatchTheirRow : Prop :=
  ∀ (i : Instr) (s : State) (f : Bytes) (p : Bytes × Bytes), framePattern i = some p →
    exec i s = .next { s with returned := s.returned ++ [.ok (.frame f)] } → matchesPattern (f.take 70) p = true

/-! ## What every operation leaves unchanged -/

/-- R22, R50, R227: every operation other than CRC.INIT and CRC.FEED completes and does nothing but give one
reply: `CRC`, the parameters and the host's queue are as before, whether it returns a result or an error. The
decisions D3 and D4. -/
def Obligations.OtherOperationsOnlyReply : Prop :=
  ∀ (i : Instr) (s : State), i.wf = true → i ≠ .crcInit → (∀ b, i ≠ .crcFeed b) →
    ∃ r, exec i s = .next { s with returned := s.returned ++ [r] }

/-- R22, R25, R49: no reply depends on earlier replies or on what the host has still to issue, and only CRC.READ's
depends on `CRC`: in two states with the same parameters, and for CRC.READ the same `CRC`, an operation gives the same
reply. The decisions D3, D4 and D7. -/
def Obligations.RepliesDependOnOperandsAndParameters : Prop :=
  ∀ (i : Instr) (s s' t : State) (r : Reply Name), (i = .crcRead → s'.crc = s.crc) → s'.params = s.params →
    exec i s = .next t → t.returned = s.returned ++ [r] →
    ∃ t', exec i s' = .next t' ∧ t'.returned = s'.returned ++ [r]

/-- R50: every operation but CRC.FEED, issued twice, gives the same reply twice and leaves `CRC` as the first
left it. The decisions D3 and D4. -/
def Obligations.RepeatedOperationRepeatsItsReply : Prop :=
  ∀ (i : Instr) (s t : State) (r : Reply Name), (∀ b, i ≠ .crcFeed b) →
    exec i s = .next t → t.returned = s.returned ++ [r] →
    exec i t = .next { t with returned := t.returned ++ [r] }

/-- R227: an operation that raises has no effect but the error it returns. The spec derives R227. -/
def Obligations.ErrorsChangeNothing : Prop :=
  ∀ (i : Instr) (s t : State) (e : Error), exec i s = .next t → t.returned = s.returned ++ [.error e] →
    t = { s with returned := s.returned ++ [.error e] }

/-- R221: which operation raises which error, with its code and info record; a reserved selector's error has code 4 and
every result code 0. The codes are the decision D7, INDEX_RANGE D22, UNSUPPORTED D24. -/
def Obligations.ErrorsComeFromTheirOperations : Prop :=
  (∀ r : Result Name, outcomeCode (.ok r) = 0) ∧
  (∀ o : Byte, outcomeCode (.error (.unsupportedOpsel o) : Reply Name) = 4) ∧
  ∀ (i : Instr) (s t : State) (e : Error), exec i s = .next t → t.returned = s.returned ++ [.error e] →
    (∃ b, i = .frameEnc b ∧ b.length > 70 ∧ e = .overlength b.length 70 ∧
      outcomeCode (.error e : Reply Name) = 1) ∨
    (∃ g c, i = .encWfPacket g c ∧ c.length > 64 ∧ e = .overlength c.length 64 ∧
      outcomeCode (.error e : Reply Name) = 1) ∨
    (∃ g c, i = .encWfPacket g c ∧ g ≥ 2 ^ 24 ∧ e = .indexRange g (2 ^ 24) ∧
      outcomeCode (.error e : Reply Name) = 3) ∨
    (∃ f, (i = .frameVal f ∨ i = .hdrDec f) ∧ crc16x (f.take 70) ≠ be16 (f.getD 70 0) (f.getD 71 0) ∧
      e = .checksumMismatch (crc16x (f.take 70)) (be16 (f.getD 70 0) (f.getD 71 0)) ∧
      outcomeCode (.error e : Reply Name) = 2) ∨
    (∃ ops, i = .encWrPacket ops ∧ e = .unsupportedCommand .writeRamPacket ∧
      outcomeCode (.error e : Reply Name) = 4) ∨
    (∃ ops, i = .encRdFlash ops ∧ e = .unsupportedCommand .readFlash ∧
      outcomeCode (.error e : Reply Name) = 4) ∨
    (∃ ops, i = .encRdRam ops ∧ e = .unsupportedCommand .readRam ∧
      outcomeCode (.error e : Reply Name) = 4)

/-! ## The CRC unit -/

/-- R134 and R136: CRC.INIT writes 0x0000 and returns nothing; CRC.READ returns `CRC` and leaves it. The
register and its operations are the decision D3. -/
def Obligations.CrcInitClearsAndReadReturns : Prop :=
  ∀ s : State,
    encode .crcInit = ⟨0x00, []⟩ ∧
    exec .crcInit s = .next { s with crc := 0x0000, returned := s.returned ++ [.ok .none] } ∧
    encode .crcRead = ⟨0x20, []⟩ ∧
    exec .crcRead s = .next { s with returned := s.returned ++ [.ok (.word s.crc)] }

/-- R131, R135, R140: CRC.FEED replaces `CRC` by the byte step of R131, computed on numbers as the rule writes
it, and changes nothing else. The operation is the decision D3; the spec derives R131 from the source's words
and its vector. -/
def Obligations.CrcFeedIsTheByteStep : Prop :=
  ∀ (b : Byte) (s : State), encode (.crcFeed b) = ⟨0x10, [.byte b]⟩ ∧
    ∃ c, exec (.crcFeed b) s = .next { s with crc := c, returned := s.returned ++ [.ok .none] } ∧
      c.toNat = specCrcStep s.crc.toNat b.toNat

/-- R138 (e): CRC.FEED in its table form, with the 256 entries that 95_test_vectors.md lists. The spec derives
the law and the entries. -/
def Obligations.CrcFeedFollowsTheTable : Prop :=
  ∀ (b : Byte) (s : State),
    exec (.crcFeed b) s =
      .next { s with
        crc := (s.crc <<< 8) ^^^ specCrcTable.getD (s.crc.toNat / 256 ^^^ b.toNat) 0
        returned := s.returned ++ [.ok .none] }

/-- R137: after CRC.INIT and a sequence of well-formed operations with no other CRC.INIT, `CRC` is `crc16x` of
the bytes fed, whatever other operations stand between the CRC.FEED operations. The spec derives R137. -/
def Obligations.FedCrcAgreesWithSpanCrc : Prop :=
  ∀ (is : List Instr) (s : State), (∀ i ∈ is, i.wf = true ∧ i ≠ .crcInit) →
    ∃ t, execAll (.crcInit :: is) s = .next t ∧ t.crc = crc16x (fedBytes is) ∧ t.params = s.params

/-- R75: CRC.SPAN, issued as its expansion, is served in len(s) + 2 steps; it leaves `crc16x(s)` in `CRC`, and
its last reply is that value. The pseudo-operation is the decision D6. -/
def Obligations.CrcSpanReturnsTheSpanCrc : Prop :=
  ∀ (b : Bytes) (s : State) (rest : List HostEvent), paramsWf s.params = true →
    s.pending = (crcSpan b).map (fun i => .issue (encode i)) ++ rest →
    core.run (b.length + 2) s =
      .next { s with
        crc := crc16x b
        pending := rest
        returned := s.returned ++ List.replicate (b.length + 1) (.ok .none) ++ [.ok (.word (crc16x b))] }

/-- R130, R132: the CRC is the remainder of the message polynomial times x^16 by the generator x^16 + x^12 + x^5
+ 1 over GF(2): the two differ by a sum of shifted generators, and the CRC has 16 bits. The spec derives the
generator from the value 0x1021; that the result is the remainder is the meaning of R131. -/
def Obligations.CrcIsTheRemainderByTheGenerator : Prop :=
  ∀ s : Bytes, ∃ ks : List Nat, (bytesNat s <<< 16) ^^^ (crc16x s).toNat = generatorSum ks

/-- R138 (a), (b): zero bytes before a sequence do not change its CRC, so the CRC of zeros is 0x0000. The spec
derives R138. -/
def Obligations.LeadingZerosDoNotCount : Prop :=
  ∀ (n : Nat) (s : Bytes), crc16x (List.replicate n 0x00 ++ s) = crc16x s ∧ crc16x (List.replicate n 0x00) = 0x0000

/-- R138 (c): the CRC is linear over GF(2) on sequences of equal length. The spec derives R138. -/
def Obligations.CrcIsLinear : Prop :=
  ∀ a b : Bytes, a.length = b.length → crc16x (List.zipWith (· ^^^ ·) a b) = crc16x a ^^^ crc16x b

/-- R138 (d): a sequence followed by its own CRC, high byte first, has CRC 0x0000; so every frame that FRAME.VAL
returns has CRC 0x0000 over its 72 bytes. The spec derives R138. -/
def Obligations.SealedFrameHasZeroResidue : Prop :=
  (∀ s : Bytes, crc16x (s ++ be16Bytes (crc16x s)) = 0x0000) ∧
  ∀ (f : Bytes) (s : State),
    exec (.frameVal f) s = .next { s with returned := s.returned ++ [.ok (.frame f)] } → crc16x f = 0x0000

/-! ## The frame codec -/

/-- R151: FRAME.ENC of at most 70 bytes returns the frame that holds them, then zeros up to byte 70, then their
big-endian CRC; of more it returns `OVERLENGTH`. That the error is a returned result is the decision D7. -/
def Obligations.FrameEncBuildsTheFrame : Prop :=
  ∀ (b : Bytes) (s : State),
    encode (.frameEnc b) = ⟨0x30, [.bytes b]⟩ ∧
    (b.length ≤ 70 → ∃ f, exec (.frameEnc b) s = .next { s with returned := s.returned ++ [.ok (.frame f)] } ∧
      f.length = 72 ∧ f.take b.length = b ∧ (∀ k, b.length ≤ k → k < 70 → f[k]? = some 0x00) ∧
      256 * (f.getD 70 0).toNat + (f.getD 71 0).toNat = (crc16x (b ++ List.replicate (70 - b.length) 0x00)).toNat) ∧
    (b.length > 70 →
      exec (.frameEnc b) s = .next { s with returned := s.returned ++ [.error (.overlength b.length 70)] })

/-- R152 to R156, R62: the five command encoders without operands return these frames, checksum included. Info
and Status are the same frame (R68). -/
def Obligations.FixedCommandFrames : Prop :=
  ∀ s : State,
    exec .encInfo s = .next { s with returned := s.returned ++
      [.ok (.frame ([0x55, 0x04, 0x01] ++ List.replicate 67 0x00 ++ [0x99, 0x36]))] } ∧
    exec .encStatus s = .next { s with returned := s.returned ++
      [.ok (.frame ([0x55, 0x04, 0x01] ++ List.replicate 67 0x00 ++ [0x99, 0x36]))] } ∧
    exec .encEraseFlash s = .next { s with returned := s.returned ++
      [.ok (.frame ([0x55, 0x03, 0x00, 0x00, 0x00, 0x03] ++ List.replicate 64 0x00 ++ [0x1A, 0x7A]))] } ∧
    exec .encEraseRam s = .next { s with returned := s.returned ++
      [.ok (.frame ([0x55, 0x03, 0x01, 0x00, 0x00, 0x03] ++ List.replicate 64 0x00 ++ [0x20, 0x8D]))] } ∧
    exec .encWfBegin s = .next { s with returned := s.returned ++
      [.ok (.frame ([0x55, 0x00, 0x02, 0x00, 0x00, 0x00, 0x03, 0x00, 0x05] ++ List.replicate 61 0x00 ++ [0xB0, 0x30]))] } ∧
    encode .encInfo = ⟨0x40, []⟩ ∧ encode .encStatus = ⟨0x41, []⟩ ∧ encode .encEraseFlash = ⟨0x42, []⟩ ∧
    encode .encEraseRam = ⟨0x43, []⟩ ∧ encode .encWfBegin = ⟨0x44, []⟩

/-- R157, R63, R64: ENC.WF_PACKET returns the packet frame, field by field, when the chunk has at most 64 bytes
and g < 2^24. -/
def Obligations.PacketFrameFieldByField : Prop :=
  ∀ (g : Nat) (c : Bytes) (s : State), c.length ≤ 64 → g < 2 ^ 24 →
    encode (.encWfPacket g c) = ⟨0x45, [.nat g, .bytes c]⟩ ∧
    ∃ f, exec (.encWfPacket g c) s = .next { s with returned := s.returned ++ [.ok (.frame f)] } ∧
      f.length = 72 ∧ f.take 3 = [0x55, 0x01, 0x00] ∧
      (f.getD 3 0).toNat = g % 256 ∧ 256 * (f.getD 4 0).toNat + (f.getD 5 0).toNat = g / 256 ∧
      (f.drop 6).take c.length = c ∧ (∀ k, 6 + c.length ≤ k → k < 70 → f[k]? = some 0x00) ∧
      256 * (f.getD 70 0).toNat + (f.getD 71 0).toNat = (crc16x (f.take 70)).toNat

/-- R157, R228: a chunk of more than 64 bytes gives `OVERLENGTH`, whatever g is; otherwise g at or over 2^24
gives `INDEX_RANGE`. The bound is the decision D22, the order D8, the chunk lengths D23. -/
def Obligations.PacketErrorsInOrder : Prop :=
  ∀ (g : Nat) (c : Bytes) (s : State),
    (c.length > 64 →
      exec (.encWfPacket g c) s = .next { s with returned := s.returned ++ [.error (.overlength c.length 64)] }) ∧
    (c.length ≤ 64 → g ≥ 2 ^ 24 →
      exec (.encWfPacket g c) s = .next { s with returned := s.returned ++ [.error (.indexRange g (2 ^ 24))] })

/-- R165: the packet-index and page-index bytes determine the global index; two packet frames with the same
bytes 3, 4 and 5 have the same one. The spec derives R165. -/
def Obligations.PacketFieldsIdentifyThePacket : Prop :=
  ∀ (g g' : Nat) (c c' f f' : Bytes) (s : State),
    exec (.encWfPacket g c) s = .next { s with returned := s.returned ++ [.ok (.frame f)] } →
    exec (.encWfPacket g' c') s = .next { s with returned := s.returned ++ [.ok (.frame f')] } →
    (f.drop 3).take 3 = (f'.drop 3).take 3 → g = g'

/-- R164: streaming an image of up to 2^30 bytes builds ceil(L/64) packet frames, with the global indices in
order, and the image stands in their payloads in order, zero-padded at the end. The bound 2^30 is 64 times the
index bound of decision D22. -/
def Obligations.StreamedImageStandsInThePackets : Prop :=
  ∀ (image : Bytes) (s : State), image.length ≤ 2 ^ 30 →
    ∃ fs : List Bytes,
      execAll (streamImage image) s = .next { s with returned := s.returned ++ fs.map (fun f => .ok (.frame f)) } ∧
      fs.length = (image.length + 63) / 64 ∧
      (∀ (g : Nat) (f : Bytes), fs[g]? = some f →
        (f.getD 3 0).toNat = g % 256 ∧ 256 * (f.getD 4 0).toNat + (f.getD 5 0).toNat = g / 256) ∧
      (fs.map fun f => (f.drop 6).take 64).flatten =
        image ++ List.replicate (64 * ((image.length + 63) / 64) - image.length) 0x00

/-- R158 to R160: the encoders of the three commands without bytes return `UNSUPPORTED`, whatever their operands
are. The decision D24, read as a returned result (log 6). -/
def Obligations.EncodersWithoutBytesReturnUnsupported : Prop :=
  ∀ (ops : List Operand) (s : State),
    encode (.encWrPacket ops) = ⟨0x46, ops⟩ ∧
    exec (.encWrPacket ops) s =
      .next { s with returned := s.returned ++ [.error (.unsupportedCommand .writeRamPacket)] } ∧
    encode (.encRdFlash ops) = ⟨0x47, ops⟩ ∧
    exec (.encRdFlash ops) s = .next { s with returned := s.returned ++ [.error (.unsupportedCommand .readFlash)] } ∧
    encode (.encRdRam ops) = ⟨0x48, ops⟩ ∧
    exec (.encRdRam ops) s = .next { s with returned := s.returned ++ [.error (.unsupportedCommand .readRam)] }

/-- R161: FRAME.VAL returns the frame unchanged when the CRC of its first 70 bytes is the number in its last
two, high byte first, and `CHECKSUM_MISMATCH` with both values when it is not. The decisions D26 and D31. -/
def Obligations.FrameValComparesTheChecksums : Prop :=
  ∀ (f : Bytes) (s : State), f.length = 72 →
    encode (.frameVal f) = ⟨0x50, [.bytes f]⟩ ∧
    ((crc16x (f.take 70)).toNat = 256 * (f.getD 70 0).toNat + (f.getD 71 0).toNat →
      exec (.frameVal f) s = .next { s with returned := s.returned ++ [.ok (.frame f)] }) ∧
    ((crc16x (f.take 70)).toNat ≠ 256 * (f.getD 70 0).toNat + (f.getD 71 0).toNat →
      exec (.frameVal f) s = .next { s with returned := s.returned ++
        [.error (.checksumMismatch (crc16x (f.take 70)) (be16 (f.getD 70 0) (f.getD 71 0)))] })

/-- R162: the round trip. For every sequence of at most 70 bytes, FRAME.VAL returns the frame that FRAME.ENC
built of it, and the frame begins with the sequence. FRAME.VAL returns every frame that ENC.INFO to
ENC.WF_PACKET build. The spec derives R162. -/
def Obligations.ValidatorAcceptsEveryEncodedFrame : Prop :=
  (∀ (b : Bytes) (s s' : State), b.length ≤ 70 →
    ∃ f, exec (.frameEnc b) s = .next { s with returned := s.returned ++ [.ok (.frame f)] } ∧
      exec (.frameVal f) s' = .next { s' with returned := s'.returned ++ [.ok (.frame f)] } ∧ f.take b.length = b) ∧
  ∀ (i : Instr) (s s' : State) (f : Bytes), framePattern i ≠ none →
    exec i s = .next { s with returned := s.returned ++ [.ok (.frame f)] } →
    exec (.frameVal f) s' = .next { s' with returned := s'.returned ++ [.ok (.frame f)] }

/-- R139: in a frame that FRAME.VAL accepts, flip any one of its 576 bits: FRAME.VAL and HDR.DEC both return
`CHECKSUM_MISMATCH`, with two values that differ. The spec derives R139; that HDR.DEC tests the checksum (R180) is the
decision D27. -/
def Obligations.EverySingleBitErrorIsDetected : Prop :=
  ∀ (f : Bytes) (s s' : State) (k : Nat), f.length = 72 → k < 576 →
    exec (.frameVal f) s = .next { s with returned := s.returned ++ [.ok (.frame f)] } →
    ∃ computed stored, computed ≠ stored ∧
      exec (.frameVal (flipBit f k)) s' =
        .next { s' with returned := s'.returned ++ [.error (.checksumMismatch computed stored)] } ∧
      exec (.hdrDec (flipBit f k)) s' =
        .next { s' with returned := s'.returned ++ [.error (.checksumMismatch computed stored)] }

/-- R44, R45: a 16-bit field written at an offset inside a frame reads back as the value, its high byte is at
the lower offset, and every byte outside it is as before. The spec derives R45. -/
def Obligations.FieldWrittenBigEndianReadsBack : Prop :=
  ∀ (f : Bytes) (a : Nat) (v : U16), f.length = 72 → a + 2 ≤ 72 →
    word16At (memWrite f a (be16Bytes v)) a = v ∧
    ((memWrite f a (be16Bytes v)).getD a 0).toNat = v.toNat / 256 ∧
    ((memWrite f a (be16Bytes v)).getD (a + 1) 0).toNat = v.toNat % 256 ∧
    (memWrite f a (be16Bytes v)).length = 72 ∧
    ∀ k, k < a ∨ a + 2 ≤ k → (memWrite f a (be16Bytes v))[k]? = f[k]?

/-! ## The response decoder -/

/-- R180, R228: HDR.DEC of a frame whose checksum does not match returns `CHECKSUM_MISMATCH` and no record. The
decisions D27 and D8. -/
def Obligations.DecoderRejectsMismatchFirst : Prop :=
  ∀ (f : Bytes) (s : State), f.length = 72 →
    (crc16x (f.take 70)).toNat ≠ 256 * (f.getD 70 0).toNat + (f.getD 71 0).toNat →
      exec (.hdrDec f) s = .next { s with returned := s.returned ++
        [.error (.checksumMismatch (crc16x (f.take 70)) (be16 (f.getD 70 0) (f.getD 71 0)))] }

/-- R199: for every frame whose checksum matches, HDR.DEC returns a record, in the state that the logo byte
selects (R185), and raises nothing. The spec derives R199; the predicate is the parameter of D12. -/
def Obligations.DecoderIsTotalOnSealedFrames : Prop :=
  ∀ (f : Bytes) (s : State), Sealed f →
    encode (.hdrDec f) = ⟨0x60, [.bytes f]⟩ ∧
    ∃ h, exec (.hdrDec f) s = .next { s with returned := s.returned ++ [.ok (.header h)] } ∧
      ((∃ info cart, h = .logoValid info cart) ↔
        ∃ r ∈ s.params.logoValidPred, r.lo.toNat ≤ (f.getD s.params.respLayout.logo 0).toNat ∧
          (f.getD s.params.respLayout.logo 0).toNat ≤ r.hi.toNat)

/-- R182 to R186: the `LogoInvalid` record holds the firmware version, the manufacturer, the device id and the
message, and no cartridge field. The decisions D9 to D12 and D21. -/
def Obligations.LogoInvalidRecord : Prop :=
  ∀ (f : Bytes) (s : State), Sealed f →
    predHolds s.params.logoValidPred (f.getD s.params.respLayout.logo 0) = false →
    ∃ fw man dev,
      exec (.hdrDec f) s = .next { s with returned := s.returned ++
        [.ok (.header (.logoInvalid { fw := fw, man := man, dev := dev } .blank))] } ∧
      fw.raw = f.getD s.params.respLayout.fw 0 ∧ fw.major.toNat = fw.raw.toNat / 16 ∧
      fw.minor.toNat = fw.raw.toNat % 16 ∧
      man.code = f.getD s.params.respLayout.manuf 0 ∧
      (∀ n, man.name = .known n ↔ s.params.manufTable.lookup man.code = some n) ∧
      dev = f.getD s.params.respLayout.devid 0

/-- R187 to R198: the `LogoValid` record, field by field, from the bytes at the offsets of the layout. The
decisions D9 to D14 and D16 to D18. -/
def Obligations.LogoValidRecord : Prop :=
  ∀ (f : Bytes) (s : State) (l : RespLayout), Sealed f → l = s.params.respLayout →
    predHolds s.params.logoValidPred (f.getD l.logo 0) = true →
    ∃ info cart,
      exec (.hdrDec f) s = .next { s with returned := s.returned ++ [.ok (.header (.logoValid info cart))] } ∧
      info.fw.raw = f.getD l.fw 0 ∧ info.fw.major.toNat = info.fw.raw.toNat / 16 ∧
      info.fw.minor.toNat = info.fw.raw.toNat % 16 ∧ info.man.code = f.getD l.manuf 0 ∧
      (∀ n, info.man.name = .known n ↔ s.params.manufTable.lookup info.man.code = some n) ∧
      info.dev = f.getD l.devid 0 ∧
      cart.protect = f.getD l.prot 0 ∧
      cart.cgbRaw = f.getD l.cgb 0 ∧ cart.cgb = predHolds s.params.cgbPred cart.cgbRaw ∧
      cart.oldLicRaw = f.getD l.oldlic 0 ∧ cart.newLicRaw = (f.getD l.newlic 0, f.getD (l.newlic + 1) 0) ∧
      exec (.licRes cart.oldLicRaw cart.newLicRaw.1 cart.newLicRaw.2) s =
        .next { s with returned := s.returned ++ [.ok (.licensee cart.licScheme cart.licensee)] } ∧
      cart.sgbRaw = f.getD l.sgb 0 ∧ cart.sgb = predHolds s.params.sgbPred cart.sgbRaw ∧
      cart.cartTypeCode = f.getD l.ctype 0 ∧
      exec (.lutCart cart.cartTypeCode) s =
        .next { s with returned := s.returned ++ [.ok (.resolved cart.cartType)] } ∧
      cart.romSizeCode = f.getD l.romsz 0 ∧ cart.ramSizeCode = f.getD l.ramsz 0 ∧
      cart.destRaw = f.getD l.dest 0 ∧
      (cart.dest = .japan ↔ cart.destRaw = 0x00) ∧ (cart.dest = .nonJapan ↔ cart.destRaw = 0x01) ∧
      cart.maskRomVersion = f.getD l.maskver 0 ∧ cart.headerChecksum = f.getD l.hdrck 0 ∧
      cart.cartChecksum.toNat = 256 * (f.getD l.cartck 0).toNat + (f.getD (l.cartck + 1) 0).toNat

/-- R189: the title of a `LogoValid` record is the bytes of the 16-byte field before its first 0x00, or all 16.
The decision D15. -/
def Obligations.TitleEndsAtFirstZero : Prop :=
  ∀ (f : Bytes) (s : State) (info : ReaderInfo Name) (cart : CartridgeInfo Name), paramsWf s.params = true →
    exec (.hdrDec f) s = .next { s with returned := s.returned ++ [.ok (.header (.logoValid info cart))] } →
    cart.title.length ≤ 16 ∧
    cart.title = (f.drop s.params.respLayout.title).take cart.title.length ∧
    0x00 ∉ cart.title ∧
    (cart.title.length < 16 → f[s.params.respLayout.title + cart.title.length]? = some 0x00)

/-- R186: among frames whose checksum matches and whose logo byte is invalid, no byte outside FW, MANUF, DEVID
and LOGO changes the reply. The decision D21. -/
def Obligations.LogoInvalidIgnoresCartridgeBytes : Prop :=
  ∀ (f f' : Bytes) (s : State), Sealed f → Sealed f' →
    (∀ k ∈ [RespField.fw, .manuf, .devid, .logo],
      f[fieldOff s.params.respLayout k]? = f'[fieldOff s.params.respLayout k]?) →
    predHolds s.params.logoValidPred (f.getD s.params.respLayout.logo 0) = false →
    exec (.hdrDec f) s = exec (.hdrDec f') s

/-- R47, R181: in a well-formed instance every field of a frame is a slice of its full width inside the body, so
it does not depend on the checksum bytes. The decision D9. -/
def Obligations.FieldsLieInsideTheBody : Prop :=
  ∀ (p : Params Name) (f : Bytes) (k : RespField), paramsWf p = true → f.length = 72 →
    (field p.respLayout f k).length = fieldWidth k ∧ field p.respLayout f k = field p.respLayout (f.take 70) k

/-! ## The lookup tables -/

/-- R106 to R110: each LUT operation returns `Known(n)` for the name its own table gives the code and `Unknown`
when the table gives none. The selectors are the decision D5, the raw pair as key D20. -/
def Obligations.LookupsResolveInTheirTable : Prop :=
  ∀ (s : State) (n1 n2 : Byte),
    (∃ r, exec (.lutManuf n1) s = .next { s with returned := s.returned ++ [.ok (.resolved r)] } ∧
      (∀ n, r = .known n ↔ s.params.manufTable.lookup n1 = some n)) ∧
    (∃ r, exec (.lutOldlic n1) s = .next { s with returned := s.returned ++ [.ok (.resolved r)] } ∧
      (∀ n, r = .known n ↔ s.params.oldLicTable.lookup n1 = some n)) ∧
    (∃ r, exec (.lutNewlic n1 n2) s = .next { s with returned := s.returned ++ [.ok (.resolved r)] } ∧
      (∀ n, r = .known n ↔ s.params.newLicTable.lookup (n1, n2) = some n)) ∧
    (∃ r, exec (.lutCart n1) s = .next { s with returned := s.returned ++ [.ok (.resolved r)] } ∧
      (∀ n, r = .known n ↔ s.params.cartTypeTable.lookup n1 = some n))

/-- R106: the low two bits of a LUT selector choose the table: 0 manufacturer, 1 old licensee, 3 cartridge type
for one byte, 2 new licensee for two. The decisions D5 and D32. -/
def Obligations.MultiplexerSelectsByTheLowBits : Prop :=
  ∀ (s : State) (o a b : Byte) (rest : List HostEvent), paramsWf s.params = true → o.toNat / 4 = 0x1C →
    (∀ t : CodeTable Byte Name, s.pending = .issue ⟨o, [.byte a]⟩ :: rest →
      (o.toNat % 4 = 0 ∧ t = s.params.manufTable) ∨ (o.toNat % 4 = 1 ∧ t = s.params.oldLicTable) ∨
        (o.toNat % 4 = 3 ∧ t = s.params.cartTypeTable) →
      step s = .next { s with pending := rest, returned := s.returned ++ [.ok (.resolved (resolve t a))] }) ∧
    (s.pending = .issue ⟨o, [.byte a, .byte b]⟩ :: rest → o.toNat % 4 = 2 →
      step s = .next { s with
        pending := rest, returned := s.returned ++ [.ok (.resolved (resolve s.params.newLicTable (a, b)))] })

/-- R102 to R104, R111: in every well-formed instance, manufacturer 0x00 is `Unknown`, old licensee 0x01 is
"nintendo" and the new pair "13" is "EA", by lookup and by licensee resolution. The instance is the decision
D19, the raw pair as key D20. -/
def Obligations.SourceEntriesResolveInEveryInstance : Prop :=
  ∀ (s : State) (n1 n2 : Byte), paramsWf s.params = true →
    exec (.lutManuf 0x00) s = .next { s with returned := s.returned ++ [.ok (.resolved .unknown)] } ∧
    exec (.lutOldlic 0x01) s = .next { s with returned := s.returned ++ [.ok (.resolved (.known "nintendo"))] } ∧
    exec (.lutNewlic 0x31 0x33) s = .next { s with returned := s.returned ++ [.ok (.resolved (.known "EA"))] } ∧
    exec (.licRes 0x33 0x31 0x33) s = .next { s with returned := s.returned ++ [.ok (.licensee .new (.known "EA"))] } ∧
    exec (.licRes 0x01 n1 n2) s = .next { s with returned := s.returned ++ [.ok (.licensee .old (.known "nintendo"))] }

/-- R111, R112: LIC.RES resolves the pair in the new table exactly when the old byte is 0x33, and the old byte
in the old table otherwise. -/
def Obligations.LicenseeSchemeFollowsTheEscape : Prop :=
  ∀ (s : State) (old n1 n2 : Byte),
    encode (.licRes old n1 n2) = ⟨0x80, [.byte old, .byte n1, .byte n2]⟩ ∧
    ∃ sch r, exec (.licRes old n1 n2) s = .next { s with returned := s.returned ++ [.ok (.licensee sch r)] } ∧
      (sch = .new ↔ old.toNat = 0x33) ∧
      (∀ n, r = .known n ↔
        (old.toNat = 0x33 ∧ s.params.newLicTable.lookup (n1, n2) = some n) ∨
        (old.toNat ≠ 0x33 ∧ s.params.oldLicTable.lookup old = some n))

/-- R111, R112: LIC.RES never reads the old table's entry for 0x33, reads no old entry but its operand's, and
without the escape does not read the new pair. -/
def Obligations.LicenseeReadsOnlyItsEntry : Prop :=
  ∀ (s s' : State) (old n1 n2 m1 m2 : Byte),
    (s'.params.oldLicTable.lookup old = s.params.oldLicTable.lookup old ∨ old = 0x33) →
    (old = 0x33 → m1 = n1 ∧ m2 = n2 ∧ s'.params.newLicTable.lookup (n1, n2) = s.params.newLicTable.lookup (n1, n2)) →
    ∃ r, exec (.licRes old n1 n2) s = .next { s with returned := s.returned ++ [r] } ∧
      exec (.licRes old m1 m2) s' = .next { s' with returned := s'.returned ++ [r] }

/-! ## The host's notation -/

/-- R74, R75: lines of the notation, the text they are written as and the requests they stand for: a selector
row, the two pseudo-operations, and a named result used as a frame operand. The notation is the decision D6; the
model's part of it is log 7. -/
def Obligations.LinesStandForTheirRequests : Prop :=
  lineText ⟨some "p", "ENC.WF_PACKET", [.nat 256, .seq (.append (.hex [0xFF, 0x0A]) (.zeros 3))], some "x"⟩ =
    "p = ENC.WF_PACKET 256, h\"FF 0A\" ++ zeros(3) ; x" ∧
  (∀ (b : Byte) (n : Nat),
    assemble ([] : List (String × Result Name)) ⟨none, "CRC.FEEDN", [.byte b, .nat n], none⟩ =
    some (List.replicate n ⟨0x10, [.byte b]⟩)) ∧
  (∀ s : Bytes, assemble ([] : List (String × Result Name)) ⟨none, "CRC.SPAN", [.seq (.hex s)], none⟩ =
    some (⟨0x00, []⟩ :: s.map (fun b => ⟨0x10, [.byte b]⟩) ++ [⟨0x20, []⟩])) ∧
  (∀ (f : Bytes) (env : List (String × Result Name)),
    assemble (("f", .frame f) :: env) ⟨some "v", "FRAME.VAL", [.named "f"], none⟩ = some [⟨0x50, [.bytes f]⟩])

/-! ## The name type -/

/-- R7: `Name` is an argument of the block, and `step` is the block at strings with the names "nintendo" and "EA". The
choice of strings is the model's (log 2). -/
def Obligations.StepIsTheBlockAtStrings : Prop :=
  ∀ s : State, step s = blockStep { nintendo := "nintendo", ea := "EA" } s

/-- R7, R100: the block is the same whatever the names are. For all name types with decidable equality and every
injective renaming of one into the other, a step of the renamed state is the renamed step. The type of names is the
decision D19; the renaming is the model's way to say it (log 2). -/
def Obligations.RenamingNamesCommutesWithEveryStep : Prop :=
  ∀ (ν ν' : Type) [DecidableEq ν] [DecidableEq ν'] (ρ : ν → ν') (nm : FixedNames ν) (s : State.Of ν),
    Function.Injective ρ →
      blockStep (renameFixed ρ nm) (renameState ρ s) = renameOutcome ρ (blockStep nm s)
end

