-- ==== Sys2Proof/Laws/Crc.lean ====
section
/-! SUPPORT. The CRC over a sequence cut in two, and the linearity of one shift (41_crc16_xmodem.md R131, R132). -/

namespace Sys2Proof.Machine

/-- The CRC goes on from where the first part ends (R132). -/
theorem crc16x_append (s t : Bytes) : crc16x (s ++ t) = t.foldl crcStep (crc16x s) := by
  simp [crc16x]

/-- One shift is linear over GF(2) (R138). -/
theorem crcShift_xor (a b : U16) : crcShift (a ^^^ b) = crcShift a ^^^ crcShift b := by
  have hs : (a ^^^ b) <<< 1 = a <<< 1 ^^^ b <<< 1 := by
    ext i; simp only [BitVec.getElem_shiftLeft, BitVec.getElem_xor]; cases decide (i < 1) <;> simp
  unfold crcShift
  rw [BitVec.getLsbD_xor, hs]
  cases a.getLsbD 15 <;> cases b.getLsbD 15 <;> ext i <;> simp <;> grind

end Sys2Proof.Machine
end

