-- ==== Sys2Proof/Laws/Operands.lean ====
section
/-! SUPPORT. Lengths, slices and byte order of the byte sequences (20_memory.md R44, R45), and what a sealed
body is. -/

namespace Sys2Proof.Machine

@[simp] theorem zeros_length (n : Nat) : (zeros n).length = n := by simp [zeros]

theorem padTo_length {n : Nat} {s : Bytes} (h : s.length ≤ n) : (padTo n s).length = n := by
  simp [padTo]; omega

@[simp] theorem be16Bytes_length (v : U16) : (be16Bytes v).length = 2 := rfl

@[simp] theorem be16_extract (v : U16) : be16 (v.extractLsb' 8 8) (v.extractLsb' 0 8) = v := by
  apply BitVec.eq_of_toNat_eq
  have h := v.isLt
  simp only [be16, BitVec.toNat_or, BitVec.toNat_shiftLeft, BitVec.toNat_setWidth, BitVec.extractLsb'_toNat,
    Nat.shiftLeft_eq, Nat.shiftRight_eq_div_pow]
  have e : v.toNat / 2 ^ 8 % 2 ^ 8 % 2 ^ 16 * 2 ^ 8 % 2 ^ 16 = 2 ^ 8 * (v.toNat / 2 ^ 8) := by omega
  rw [e, ← Nat.two_pow_add_eq_or_of_lt (by omega)]
  omega

theorem sealBody_length (body : Bytes) : (sealBody body).length = body.length + 2 := by simp [sealBody]

theorem commandFrame_length {s : Bytes} (h : s.length ≤ 70) : (commandFrame s).length = 72 := by
  rw [commandFrame, sealBody_length, Config.bodyLen, padTo_length h]

/-- A sealed body is the body of its frame. -/
theorem bodyOf_sealBody {body : Bytes} (h : body.length = 70) : bodyOf (sealBody body) = body := by
  simp [bodyOf, memRead, sealBody, Config.bodyLen, ← h]

/-- A sealed body carries its own checksum (R61, R150). -/
theorem storedChecksum_sealBody {body : Bytes} (h : body.length = 70) :
    storedChecksum (sealBody body) = crc16x body := by
  simp [storedChecksum, word16At, byteAt, sealBody, be16Bytes, Config.crcOff, h]

/-- The checksum test passes on a sealed body (R161). -/
theorem checksumError_sealBody {body : Bytes} (h : body.length = 70) : checksumError (sealBody body) = none := by
  rw [checksumError, bodyOf_sealBody h, storedChecksum_sealBody h, if_pos rfl]

/-- The first byte of a slice is the byte at its offset. -/
theorem byteAt_memRead {f : Bytes} {a n i : Nat} (h : i < n) : byteAt (memRead f a n) i = byteAt f (a + i) := by
  simp [byteAt, memRead, h]

end Sys2Proof.Machine
end

