-- ==== Sys2Proof/Laws/State.lean ====
section
/-! SUPPORT. One lemma per field for each update of the state. -/

namespace Sys2Proof.Machine

variable {ν : Type}

@[simp] theorem giveReply_crc (r : Reply ν) (s : State.Of ν) : (giveReply r s).crc = s.crc := rfl
@[simp] theorem giveReply_params (r : Reply ν) (s : State.Of ν) : (giveReply r s).params = s.params := rfl
@[simp] theorem giveReply_pending (r : Reply ν) (s : State.Of ν) : (giveReply r s).pending = s.pending := rfl
@[simp] theorem giveReply_returned (r : Reply ν) (s : State.Of ν) : (giveReply r s).returned = s.returned ++ [r] := rfl

@[simp] theorem setCrc_crc (v : U16) (s : State.Of ν) : (setCrc v s).crc = v := rfl
@[simp] theorem setCrc_params (v : U16) (s : State.Of ν) : (setCrc v s).params = s.params := rfl
@[simp] theorem setCrc_pending (v : U16) (s : State.Of ν) : (setCrc v s).pending = s.pending := rfl
@[simp] theorem setCrc_returned (v : U16) (s : State.Of ν) : (setCrc v s).returned = s.returned := rfl

@[simp] theorem resetBlock_crc (s : State.Of ν) : (resetBlock s).crc = 0x0000 := rfl
@[simp] theorem resetBlock_params (s : State.Of ν) : (resetBlock s).params = s.params := rfl
@[simp] theorem resetBlock_pending (s : State.Of ν) : (resetBlock s).pending = s.pending := rfl
@[simp] theorem resetBlock_returned (s : State.Of ν) : (resetBlock s).returned = s.returned := rfl

@[simp] theorem issueFirst_crc (r : Request) (s : State.Of ν) : (issueFirst r s).crc = s.crc := rfl
@[simp] theorem issueFirst_params (r : Request) (s : State.Of ν) : (issueFirst r s).params = s.params := rfl
@[simp] theorem issueFirst_pending (r : Request) (s : State.Of ν) :
    (issueFirst r s).pending = .issue r :: s.pending := rfl
@[simp] theorem issueFirst_returned (r : Request) (s : State.Of ν) : (issueFirst r s).returned = s.returned := rfl

end Sys2Proof.Machine
end

