-- ==== Sys2Proof/Laws/Ops.lean ====
section
/-! SUPPORT. What each shared operation can do, said once. -/

namespace Sys2Proof.Machine

variable {ν : Type}

/-- An operation that returns a result answers a next state, and only gives that reply. -/
theorem finish_next (r : Result ν) (s : State.Of ν) : finish r s = .next (giveReply (.ok r) s) := rfl

/-- An operation that raises an error answers a next state, and only gives that reply (R227). -/
theorem raiseError_next (e : Error) (s : State.Of ν) : raiseError e s = .next (giveReply (.error e) s) := rfl

/-- A frame operand of 72 bytes is accepted. -/
theorem withFrame_of_length {o : Byte} {f : Bytes} {k : State.Of ν → OutcomeOf ν} {s : State.Of ν} (h : f.length = 72) :
    withFrame o f k s = k s := by
  simp [withFrame, isFrame, Config.frameLen, h]

/-- Any other length is not (R73). -/
theorem withFrame_of_length_ne {o : Byte} {f : Bytes} {k : State.Of ν → OutcomeOf ν} {s : State.Of ν} (h : f.length ≠ 72) :
    withFrame o f k s = .refused (.illTypedRequest o) := by
  simp [withFrame, isFrame, Config.frameLen, h]

/-- The checksum test passes exactly when the two checksums agree (R161). -/
theorem checksumError_eq_none {f : Bytes} : checksumError f = none ↔ crc16x (bodyOf f) = storedChecksum f := by
  simp [checksumError]

/-- When it does not pass, the error carries the computed and the stored checksum (R221). -/
theorem checksumError_eq_some {f : Bytes} {e : Error} :
    checksumError f = some e ↔
      crc16x (bodyOf f) ≠ storedChecksum f ∧ e = .checksumMismatch (crc16x (bodyOf f)) (storedChecksum f) := by
  by_cases h : crc16x (bodyOf f) = storedChecksum f <;> simp [checksumError, h, eq_comm]

/-- The engine serves the first event when the instance is well-formed. -/
theorem engineStep_of_wf {s : State} (h : paramsWf s.params = true) : engineStep s = serveNext exec s := by
  rw [paramsWf] at h
  simp [engineStep, stepWith, h]

/-- It refuses every step when the instance is not (R252). -/
theorem engineStep_of_not_wf {s : State} (h : paramsWf s.params = false) : engineStep s = .refused .illFormedInst := by
  rw [paramsWf] at h
  simp [engineStep, stepWith, h]

/-- Serving an issued request takes it from the queue first. -/
theorem serveNext_issue {run : Instr → State.Of ν → OutcomeOf ν} {s : State.Of ν} {r : Request} {rest : List HostEvent}
    (h : s.pending = .issue r :: rest) : serveNext run s = serveRequest run r { s with pending := rest } := by
  simp [serveNext, h]

end Sys2Proof.Machine
end

