-- ==== Sys2Proof/Laws/PerInstr.lean ====
section
/-! SUPPORT. Facts of every instruction as syntax, one lemma per constructor. -/

namespace Sys2Proof.Laws

/-- The selector that the encoder gives an instruction selects the row of the opcode table with its mnemonic (R76). -/
def SelectorRow.Statement (i : Instr) : Prop :=
  (opcodeRow (encode i).opsel).map OpRow.mnemonic = some i.mnemonic

theorem SelectorRow.crcInit : SelectorRow.Statement .crcInit := by
  simp [SelectorRow.Statement, encode, Instr.mnemonic]; decide
theorem SelectorRow.crcFeed (b : Byte) : SelectorRow.Statement (.crcFeed b) := by
  simp [SelectorRow.Statement, encode, Instr.mnemonic]; decide
theorem SelectorRow.crcRead : SelectorRow.Statement .crcRead := by
  simp [SelectorRow.Statement, encode, Instr.mnemonic]; decide
theorem SelectorRow.frameEnc (b : Bytes) : SelectorRow.Statement (.frameEnc b) := by
  simp [SelectorRow.Statement, encode, Instr.mnemonic]; decide
theorem SelectorRow.encInfo : SelectorRow.Statement .encInfo := by
  simp [SelectorRow.Statement, encode, Instr.mnemonic]; decide
theorem SelectorRow.encStatus : SelectorRow.Statement .encStatus := by
  simp [SelectorRow.Statement, encode, Instr.mnemonic]; decide
theorem SelectorRow.encEraseFlash : SelectorRow.Statement .encEraseFlash := by
  simp [SelectorRow.Statement, encode, Instr.mnemonic]; decide
theorem SelectorRow.encEraseRam : SelectorRow.Statement .encEraseRam := by
  simp [SelectorRow.Statement, encode, Instr.mnemonic]; decide
theorem SelectorRow.encWfBegin : SelectorRow.Statement .encWfBegin := by
  simp [SelectorRow.Statement, encode, Instr.mnemonic]; decide
theorem SelectorRow.encWfPacket (g : Nat) (c : Bytes) : SelectorRow.Statement (.encWfPacket g c) := by
  simp [SelectorRow.Statement, encode, Instr.mnemonic]; decide
theorem SelectorRow.encWrPacket (ops : List Operand) : SelectorRow.Statement (.encWrPacket ops) := by
  simp [SelectorRow.Statement, encode, Instr.mnemonic]; decide
theorem SelectorRow.encRdFlash (ops : List Operand) : SelectorRow.Statement (.encRdFlash ops) := by
  simp [SelectorRow.Statement, encode, Instr.mnemonic]; decide
theorem SelectorRow.encRdRam (ops : List Operand) : SelectorRow.Statement (.encRdRam ops) := by
  simp [SelectorRow.Statement, encode, Instr.mnemonic]; decide
theorem SelectorRow.frameVal (f : Bytes) : SelectorRow.Statement (.frameVal f) := by
  simp [SelectorRow.Statement, encode, Instr.mnemonic]; decide
theorem SelectorRow.hdrDec (f : Bytes) : SelectorRow.Statement (.hdrDec f) := by
  simp [SelectorRow.Statement, encode, Instr.mnemonic]; decide
theorem SelectorRow.lutManuf (code : Byte) : SelectorRow.Statement (.lutManuf code) := by
  simp [SelectorRow.Statement, encode, Instr.mnemonic]; decide
theorem SelectorRow.lutOldlic (code : Byte) : SelectorRow.Statement (.lutOldlic code) := by
  simp [SelectorRow.Statement, encode, Instr.mnemonic]; decide
theorem SelectorRow.lutNewlic (n1 n2 : Byte) : SelectorRow.Statement (.lutNewlic n1 n2) := by
  simp [SelectorRow.Statement, encode, Instr.mnemonic]; decide
theorem SelectorRow.lutCart (code : Byte) : SelectorRow.Statement (.lutCart code) := by
  simp [SelectorRow.Statement, encode, Instr.mnemonic]; decide
theorem SelectorRow.licRes (old n1 n2 : Byte) : SelectorRow.Statement (.licRes old n1 n2) := by
  simp [SelectorRow.Statement, encode, Instr.mnemonic]; decide

end Sys2Proof.Laws
end

