-- ==== Sys2Proof/Laws/Rename.lean ====
section
/-! SUPPORT. Renaming and the operations that look names up (00_scope.md R7). -/

namespace Sys2Proof.Machine

variable {ν ν' : Type}

@[simp] theorem renameState_crc (ρ : ν → ν') (s : State.Of ν) : (renameState ρ s).crc = s.crc := rfl
@[simp] theorem renameState_params (ρ : ν → ν') (s : State.Of ν) :
    (renameState ρ s).params = renameParams ρ s.params := rfl
@[simp] theorem renameState_pending (ρ : ν → ν') (s : State.Of ν) : (renameState ρ s).pending = s.pending := rfl
@[simp] theorem renameState_returned (ρ : ν → ν') (s : State.Of ν) :
    (renameState ρ s).returned = s.returned.map (renameReply ρ) := rfl

/-- A renamed table maps each code to the renamed name. -/
@[simp] theorem tableGet_renameTable {κ : Type} [BEq κ] (ρ : ν → ν') (t : CodeTable κ ν) (k : κ) :
    tableGet (renameTable ρ t) k = (tableGet t k).map ρ := by
  induction t with
  | nil => rfl
  | cons e t ih =>
    obtain ⟨a, n⟩ := e
    simp only [tableGet, renameTable, List.map_cons, List.lookup_cons] at ih ⊢
    cases k == a <;> simp [ih]

/-- Resolving in a renamed table renames the result. -/
@[simp] theorem resolve_renameTable {κ : Type} [BEq κ] (ρ : ν → ν') (t : CodeTable κ ν) (k : κ) :
    resolve (renameTable ρ t) k = renameResolved ρ (resolve t k) := by
  simp only [resolve, tableGet_renameTable]
  cases tableGet t k <;> rfl

/-- Licensee resolution with renamed parameters: the scheme stays, the licensee is renamed. -/
@[simp] theorem resolveLicensee_renameParams (ρ : ν → ν') (p : Params ν) (old n1 n2 : Byte) :
    resolveLicensee (renameParams ρ p) old n1 n2 =
      ((resolveLicensee p old n1 n2).1, renameResolved ρ (resolveLicensee p old n1 n2).2) := by
  simp only [resolveLicensee, renameParams]
  split <;> simp

/-- A frame decoded with renamed parameters is the renamed record. -/
theorem decodeHeader_renameParams (ρ : ν → ν') (p : Params ν) (f : Bytes) :
    renameReply ρ (.ok (.header (decodeHeader p f))) = .ok (.header (decodeHeader (renameParams ρ p) f)) := by
  have hl : (renameParams ρ p).respLayout = p.respLayout := rfl
  have hv : (renameParams ρ p).logoValidPred = p.logoValidPred := rfl
  simp only [decodeHeader, hl, hv]
  split <;> simp [renameReply, decodeInfo, decodeCart, renameInfo, renameCart] <;> simp [renameParams]

/-- Returning a renamed result in a renamed state is the renamed outcome. -/
theorem renameOutcome_finish (ρ : ν → ν') {r : Result ν} {r' : Result ν'} (s : State.Of ν)
    (h : renameReply ρ (.ok r) = .ok r') : renameOutcome ρ (finish r s) = finish r' (renameState ρ s) := by
  simp [finish, giveReply, renameOutcome, renameState, h]

/-- An error holds no name. -/
theorem renameOutcome_raiseError (ρ : ν → ν') (e : Error) (s : State.Of ν) :
    renameOutcome ρ (raiseError e s) = raiseError e (renameState ρ s) := by
  simp [raiseError, giveReply, renameOutcome, renameState, renameReply]

end Sys2Proof.Machine
end

