-- ==== Sys2Proof/Laws/Tables.lean ====
section
/-! SUPPORT. What a well-formed instance gives (R66, R102 to R104, R252). -/

namespace Sys2Proof.Machine

/-- Every field of a well-formed instance lies in the body (R66). -/
theorem paramsWf_layout {p : Params Name} (h : paramsWf p = true) (k : RespField) :
    fieldOff p.respLayout k + fieldWidth k ≤ 70 := by
  have hl : layoutWf p.respLayout = true := by simp [paramsWf, instWf] at h; exact h.2
  have hk : k ∈ respFields := by cases k <;> decide
  exact of_decide_eq_true (List.all_eq_true.mp hl k hk)

/-- The entries the source fixes (R102 to R104). -/
theorem paramsWf_fixed {p : Params Name} (h : paramsWf p = true) :
    tableGet p.manufTable 0x00 = none ∧ tableGet p.oldLicTable 0x01 = some "nintendo" ∧
      tableGet p.newLicTable (0x31, 0x33) = some "EA" := by
  simp only [paramsWf, instWf, fixedEntries, Config.fixedNames, Bool.and_eq_true, beq_iff_eq] at h
  exact ⟨h.1.2.1.1, h.1.2.1.2, h.1.2.2⟩

/-- `resolve` answers `Known(n)` exactly when the table maps the code to n (R106). -/
theorem resolve_eq_known {κ ν : Type} [BEq κ] {t : CodeTable κ ν} {k : κ} {n : ν} :
    resolve t k = .known n ↔ tableGet t k = some n := by
  cases h : tableGet t k <;> simp [resolve, h]

/-- `resolve` answers `Unknown` exactly when the table does not map the code (R106). -/
theorem resolve_eq_unknown {κ ν : Type} [BEq κ] {t : CodeTable κ ν} {k : κ} :
    resolve t k = .unknown ↔ tableGet t k = none := by
  cases h : tableGet t k <;> simp [resolve, h]

end Sys2Proof.Machine
end

