-- ==== Sys2Proof/Tests/Slice0.lean ====
section
/-! SUPPORT. The model's own tests. Expected values are those of 95_test_vectors.md and of the spec's rules; the
comment on each names its source. At the end, for every statement with hypotheses, a state and operands that
meet them together. -/

namespace Sys2Proof.Tests

open Sys2Proof.Machine

/-- A state that is not the reset state: `CRC` holds 0xBEEF, one reply has been given and one event waits. -/
def someState : State :=
  { State.reset with crc := 0xBEEF, pending := [.issue ⟨0x20, []⟩], returned := [.ok .none] }

/-- What an operation gives the host in `someState`, if it completes. -/
def replyOf (i : Instr) : Option (Reply Name) :=
  match exec i someState with
  | .next t => t.returned.getLast?
  | .fault _ => none
  | .refused _ => none

/-- `CRC` after an operation in a state, if it completes. -/
def crcAfter (i : Instr) (s : State) : Option U16 :=
  match exec i s with
  | .next t => some t.crc
  | .fault _ => none
  | .refused _ => none

/-- The frame an operation returns in `someState`, or nothing. -/
def frameOf (i : Instr) : Bytes :=
  match replyOf i with
  | some (.ok (.frame f)) => f
  | _ => []

def infoFrame : Bytes := [0x55, 0x04, 0x01] ++ List.replicate 67 0x00 ++ [0x99, 0x36]

/-- Frame V3 of 95 group DEC: logo invalid. -/
def frameV3 : Bytes := [0x00, 0x00, 0x00, 0x12, 0x01, 0xAD] ++ List.replicate 64 0x00 ++ [0x22, 0xDB]

/-- Frame V3b of 95 group DEC: logo invalid, junk in the cartridge fields. -/
def frameV3b : Bytes :=
  [0x00, 0x00, 0x00, 0x12, 0x01, 0xAD, 0x77, 0x00, 0x4A, 0x55, 0x4E, 0x4B] ++ List.replicate 20 0x00 ++ [0x33]
    ++ List.replicate 37 0x00 ++ [0xF4, 0x41]

/-- Frame V5 of 95 group DEC: every field non-zero where possible. -/
def frameV5 : Bytes :=
  [0x00, 0x00, 0x00, 0x10, 0xC2, 0x4F, 0x01, 0xFF] ++ [0x41, 0x42, 0x43, 0x44, 0x45, 0x46, 0x47, 0x48]
    ++ [0x49, 0x4A, 0x4B, 0x4C, 0x4D, 0x4E, 0x4F, 0x50] ++ [0x80, 0x41, 0x34, 0x03, 0x1B, 0x05, 0x03, 0x00]
    ++ [0x33, 0x01, 0xFF, 0x01, 0x02] ++ List.replicate 33 0x00 ++ [0xE0, 0xEF]

/-! ## WellFormed: each check refuses an ill-formed term (R73) -/

theorem test_wf_refuses_short_validator_frame : Instr.wf (.frameVal (List.replicate 71 0x00)) = false := by decide
theorem test_wf_refuses_long_decoder_frame : Instr.wf (.hdrDec (List.replicate 73 0x00)) = false := by decide
theorem test_wf_accepts_72_bytes : Instr.wf (.hdrDec (List.replicate 72 0x00)) = true := by decide

/-- R66: a 2-byte field at offset 68 lies in [0,70), at 69 it does not. -/
theorem test_layout_bound :
    layoutWf { Config.layoutVL with cartck := 68 } = true ∧ layoutWf { Config.layoutVL with cartck := 69 } = false := by
  decide

/-- R101: a table with one code twice is no table. -/
theorem test_table_refuses_two_names_for_one_code : byteTableWf [(0x01, "a"), (0x01, "b")] = false := by decide

/-! ## Decode: every operation's request, its selector written bit by bit from R71 -/

theorem test_decode_crcInit : decode ⟨0b00000000, []⟩ = .ok .crcInit := by decide
theorem test_decode_crcFeed : decode ⟨0b00010000, [.byte 0xA5]⟩ = .ok (.crcFeed 0xA5) := by decide
theorem test_decode_crcRead : decode ⟨0b00100000, []⟩ = .ok .crcRead := by decide
theorem test_decode_frameEnc : decode ⟨0b00110000, [.bytes [0x01, 0x02]]⟩ = .ok (.frameEnc [0x01, 0x02]) := by decide
theorem test_decode_encInfo : decode ⟨0b01000000, []⟩ = .ok .encInfo := by decide
theorem test_decode_encStatus : decode ⟨0b01000001, []⟩ = .ok .encStatus := by decide
theorem test_decode_encEraseFlash : decode ⟨0b01000010, []⟩ = .ok .encEraseFlash := by decide
theorem test_decode_encEraseRam : decode ⟨0b01000011, []⟩ = .ok .encEraseRam := by decide
theorem test_decode_encWfBegin : decode ⟨0b01000100, []⟩ = .ok .encWfBegin := by decide
theorem test_decode_encWfPacket :
    decode ⟨0b01000101, [.nat 300, .bytes [0x07]]⟩ = .ok (.encWfPacket 300 [0x07]) := by decide
theorem test_decode_encWrPacket : decode ⟨0b01000110, []⟩ = .ok (.encWrPacket []) := by decide
theorem test_decode_encRdFlash : decode ⟨0b01000111, [.nat 9]⟩ = .ok (.encRdFlash [.nat 9]) := by decide
theorem test_decode_encRdRam : decode ⟨0b01001000, [.byte 0x01]⟩ = .ok (.encRdRam [.byte 0x01]) := by decide
theorem test_decode_frameVal :
    decode ⟨0b01010000, [.bytes (List.replicate 72 0x5A)]⟩ = .ok (.frameVal (List.replicate 72 0x5A)) := by decide
theorem test_decode_hdrDec :
    decode ⟨0b01100000, [.bytes (List.replicate 72 0x5A)]⟩ = .ok (.hdrDec (List.replicate 72 0x5A)) := by decide
theorem test_decode_lutManuf : decode ⟨0b01110000, [.byte 0xC2]⟩ = .ok (.lutManuf 0xC2) := by decide
theorem test_decode_lutOldlic : decode ⟨0b01110001, [.byte 0x33]⟩ = .ok (.lutOldlic 0x33) := by decide
theorem test_decode_lutNewlic : decode ⟨0b01110010, [.byte 0x31, .byte 0x33]⟩ = .ok (.lutNewlic 0x31 0x33) := by decide
theorem test_decode_lutCart : decode ⟨0b01110011, [.byte 0x1B]⟩ = .ok (.lutCart 0x1B) := by decide
theorem test_decode_licRes :
    decode ⟨0b10000000, [.byte 0x33, .byte 0x31, .byte 0x34]⟩ = .ok (.licRes 0x33 0x31 0x34) := by decide

/-- R73: a byte sequence where a byte is asked for, and a missing operand. -/
theorem test_decode_ill_typed :
    decode ⟨0x10, [.bytes [0x01]]⟩ = .illTyped 0x10 ∧ decode ⟨0x80, [.byte 0x33]⟩ = .illTyped 0x80 := by decide

/-- LUT-16: 0x74 is reserved; R228: whatever its operands are. -/
theorem test_decode_reserved : decode ⟨0x74, [.byte 0x01]⟩ = .reserved 0x74 := by decide

/-- A table word: OPSEL alone, its operands zero. -/
theorem test_table_word :
    decodeTableWord 8 0x72 = some (.lutNewlic 0x00 0x00) ∧ decodeTableWord 8 0x49 = none ∧
      decodeTableWord 8 0x60 = some (.hdrDec (List.replicate 72 0x00)) := by decide

/-! ## The CRC unit -/

/-- CRC-O1. -/
theorem test_crcInit : crcAfter .crcInit someState = some 0x0000 := by decide
/-- CRC-6 and CRC-8: a step from a value that is not zero, and the dropped bit 16. -/
theorem test_crcFeed :
    crcAfter (.crcFeed 0x56) { someState with crc := 0x1234 } = some 0x3C40 ∧
      crcAfter (.crcFeed 0x00) { someState with crc := 0x8000 } = some 0x9188 := by decide +kernel
/-- R136. -/
theorem test_crcRead : replyOf .crcRead = some (.ok (.word 0xBEEF)) ∧ crcAfter .crcRead someState = some 0xBEEF := by decide
/-- CRC-S2. -/
theorem test_crc_of_123456789 :
    crc16x [0x31, 0x32, 0x33, 0x34, 0x35, 0x36, 0x37, 0x38, 0x39] = 0x31C3 := by decide +kernel

/-! ## The frame codec -/

/-- ENC-2. -/
theorem test_frameEnc : frameOf (.frameEnc [0x01]) = [0x01] ++ List.replicate 69 0x00 ++ [0x75, 0xA6] := by decide +kernel
/-- ENC-5. -/
theorem test_frameEnc_overlength :
    replyOf (.frameEnc (List.replicate 71 0x00)) = some (.error (.overlength 71 70)) := by decide
/-- W1. -/
theorem test_encInfo : frameOf .encInfo = infoFrame := by decide +kernel
/-- ENC-7. -/
theorem test_encStatus : frameOf .encStatus = infoFrame := by decide +kernel
/-- ENC-8. -/
theorem test_encEraseFlash :
    frameOf .encEraseFlash = [0x55, 0x03, 0x00, 0x00, 0x00, 0x03] ++ List.replicate 64 0x00 ++ [0x1A, 0x7A] := by
  decide +kernel
/-- ENC-9. -/
theorem test_encEraseRam :
    frameOf .encEraseRam = [0x55, 0x03, 0x01, 0x00, 0x00, 0x03] ++ List.replicate 64 0x00 ++ [0x20, 0x8D] := by
  decide +kernel
/-- ENC-10. -/
theorem test_encWfBegin :
    frameOf .encWfBegin =
      [0x55, 0x00, 0x02, 0x00, 0x00, 0x00, 0x03, 0x00, 0x05] ++ List.replicate 61 0x00 ++ [0xB0, 0x30] := by
  decide +kernel
/-- PKT-7: the byte order of the page index. -/
theorem test_encWfPacket :
    frameOf (.encWfPacket 65535 [0x01]) =
      [0x55, 0x01, 0x00, 0xFF, 0x00, 0xFF, 0x01] ++ List.replicate 63 0x00 ++ [0x75, 0xA1] := by decide +kernel
/-- PKT-E3: the length is checked first. -/
theorem test_encWfPacket_overlength_first :
    replyOf (.encWfPacket 16777216 (List.replicate 65 0x00)) = some (.error (.overlength 65 64)) := by decide
/-- ENC-11. -/
theorem test_encWrPacket : replyOf (.encWrPacket [.nat 1]) = some (.error (.unsupportedCommand .writeRamPacket)) := by decide
/-- ENC-12. -/
theorem test_encRdFlash : replyOf (.encRdFlash []) = some (.error (.unsupportedCommand .readFlash)) := by decide
/-- ENC-13. -/
theorem test_encRdRam : replyOf (.encRdRam []) = some (.error (.unsupportedCommand .readRam)) := by decide
/-- VAL-8: bit 7 of byte 71 flipped. -/
theorem test_frameVal_mismatch :
    replyOf (.frameVal (flipBit infoFrame 575)) = some (.error (.checksumMismatch 0x9936 0x99B6)) := by decide +kernel
/-- VAL-10: a four-bit error that is not detected. -/
theorem test_frameVal_undetected :
    replyOf (.frameVal ([0x55, 0x04, 0x01] ++ List.replicate 64 0x00 ++ [0x01, 0x10, 0x21, 0x99, 0x36])) =
      some (.ok (.frame ([0x55, 0x04, 0x01] ++ List.replicate 64 0x00 ++ [0x01, 0x10, 0x21, 0x99, 0x36]))) := by
  decide +kernel

/-! ## The response decoder, under TI and VL -/

/-- V3b: nothing of the cartridge fields is in the record. -/
theorem test_hdrDec_logo_invalid :
    replyOf (.hdrDec frameV3b) = some (.ok (.header (.logoInvalid
      { fw := ⟨0x12, 1, 2⟩, man := ⟨0x01, .known "mf-01"⟩, dev := 0xAD } .blank))) := by decide +kernel
/-- V5. -/
theorem test_hdrDec_logo_valid :
    replyOf (.hdrDec frameV5) = some (.ok (.header (.logoValid
      { fw := ⟨0x10, 1, 0⟩, man := ⟨0xC2, .known "mf-C2"⟩, dev := 0x4F }
      { protect := 0x01
        title := [0x41, 0x42, 0x43, 0x44, 0x45, 0x46, 0x47, 0x48, 0x49, 0x4A, 0x4B, 0x4C, 0x4D, 0x4E, 0x4F, 0x50]
        cgbRaw := 0x80, cgb := true, licScheme := .new, licensee := .unknown, oldLicRaw := 0x33
        newLicRaw := (0x41, 0x34), sgbRaw := 0x03, sgb := true, cartTypeCode := 0x1B, cartType := .unknown
        romSizeCode := 0x05, ramSizeCode := 0x03, destRaw := 0x00, dest := .japan, maskRomVersion := 0x01
        headerChecksum := 0xFF, cartChecksum := 0x0102 }))) := by decide +kernel

/-! ## The lookup tables, under TI -/

/-- LUT-2. -/
theorem test_lutManuf : replyOf (.lutManuf 0x01) = some (.ok (.resolved (.known "mf-01"))) := by decide
/-- LUT-5: the direct lookup reads the 0x33 entry. -/
theorem test_lutOldlic : replyOf (.lutOldlic 0x33) = some (.ok (.resolved (.known "old-33"))) := by decide
/-- LUT-6 and LUT-7: the order matters. -/
theorem test_lutNewlic :
    replyOf (.lutNewlic 0x31 0x33) = some (.ok (.resolved (.known "EA"))) ∧
      replyOf (.lutNewlic 0x33 0x31) = some (.ok (.resolved .unknown)) := by decide
/-- LUT-9. -/
theorem test_lutCart : replyOf (.lutCart 0x01) = some (.ok (.resolved (.known "ct-01"))) := by decide
/-- LUT-13: no fall-back to the old table. -/
theorem test_licRes_new : replyOf (.licRes 0x33 0x41 0x34) = some (.ok (.licensee .new .unknown)) := by decide
/-- LUT-15: only 0x33 exactly is the escape. -/
theorem test_licRes_old : replyOf (.licRes 0x32 0x31 0x33) = some (.ok (.licensee .old .unknown)) := by decide

/-! ## The engine -/

/-- R184 to R198 are tested on TI, which is an instance (R252). -/
theorem test_reset_params_wf : paramsWf State.reset.params = true := by decide
/-- A step runs the operation that a table word stands for. -/
theorem test_step_runs_the_word :
    (match step (someState.withFetchWord 8 0x00) with
      | .next t => some (t.crc, t.pending)
      | .fault _ => none
      | .refused _ => none) = some (0x0000, [.issue ⟨0x20, []⟩]) := by decide
/-- P2's last operation: `UNSUPPORTED(opsel = 0x90)`, and `CRC` unchanged. -/
theorem test_step_reserved :
    (match step (someState.withFetchWord 8 0x90) with
      | .next t => some (t.crc, t.returned.getLast?)
      | .fault _ => none
      | .refused _ => none) = some (0xBEEF, some (.error (.unsupportedOpsel 0x90))) := by decide
/-- P4: 130 bytes take 3 packets, the last chunk 2 bytes; W6: 20000 bytes take 313. -/
theorem test_host_contract :
    (streamImage ((List.range 130).map (BitVec.ofNat 8)))[2]? = some (.encWfPacket 2 [0x80, 0x81]) ∧
      packetCount 130 = 3 ∧ packetCount 20000 = 313 ∧ packetCount 0 = 0 := by decide +kernel

/-! ## Witnesses: the hypotheses of the statements are met together -/

theorem checksum_info : checksumError infoFrame = none := by decide +kernel
theorem checksum_v5 : checksumError frameV5 = none := by decide +kernel
theorem checksum_v3 : checksumError frameV3 = none := by decide +kernel

/-- FRAME.VAL of a frame whose checksum test passes. -/
theorem frameVal_of_checksum {f : Bytes} (h : f.length = 72) (hc : checksumError f = none) (s : State) :
    exec (.frameVal f) s = .next { s with returned := s.returned ++ [.ok (.frame f)] } := by
  simp only [exec, execFrameVal, withFrame_of_length h, hc, finish, giveReply]

theorem witness_ResetClearsCrcOnly :
    ∃ (s : State) (rest : List HostEvent), paramsWf s.params = true ∧ s.pending = .reset :: rest :=
  ⟨{ someState with pending := [.reset, .reset] }, [.reset], by decide, rfl⟩
theorem witness_StepRunsTheDecodedOperation :
    ∃ (s : State) (r : Request) (rest : List HostEvent) (i : Instr),
      paramsWf s.params = true ∧ s.pending = .issue r :: rest ∧ decode r = .ok i :=
  ⟨someState, ⟨0x20, []⟩, [], .crcRead, by decide, rfl, by decide⟩
/-- The first and the last selector of each reserved range, and none of the selectors of R71. -/
theorem witness_ReservedSelectorReturnsUnsupported :
    (∃ (s : State) (rest : List HostEvent), paramsWf s.params = true ∧ s.pending = .issue ⟨0xFF, [.nat 3]⟩ :: rest) ∧
    (∀ o ∈ ([0x01, 0x0F, 0x11, 0x1F, 0x21, 0x2F, 0x31, 0x3F, 0x49, 0x4F, 0x51, 0x5F, 0x61, 0x6F, 0x74, 0x7F, 0x81, 0xFF] :
      List Byte), ReservedSelector o) ∧
    (∀ row ∈ opcodeTable, ¬ ReservedSelector row.matched) :=
  ⟨⟨{ someState with pending := [.issue ⟨0xFF, [.nat 3]⟩] }, [], by decide, rfl⟩,
    by unfold ReservedSelector; decide, by unfold ReservedSelector; decide⟩
theorem witness_IdleStepChangesNothing : ∃ s : State, paramsWf s.params = true ∧ s.pending = [] :=
  ⟨State.reset, by decide, rfl⟩
/-- One instance for each way to break one; the layout at the bound, 69 + 2 = 71. -/
theorem witness_BrokenInstanceIsRefused :
    (∃ s : State, ∃ k, fieldOff s.params.respLayout k + fieldWidth k > 70) ∧
    (∃ s : State, s.params.manufTable.lookup 0x00 ≠ none) ∧
    (∃ s : State, s.params.oldLicTable.lookup 0x01 ≠ some "nintendo") ∧
    (∃ s : State, s.params.newLicTable.lookup (0x31, 0x33) ≠ some "EA") :=
  ⟨⟨{ someState with params := { Config.testInst with respLayout := { Config.layoutVL with cartck := 69 } } }, .cartck,
      by decide⟩,
    ⟨{ someState with params := { Config.testInst with manufTable := [(0x00, "x")] } }, by decide⟩,
    ⟨{ someState with params := { Config.testInst with oldLicTable := [] } }, by decide⟩,
    ⟨{ someState with params := { Config.testInst with newLicTable := [((0x33, 0x31), "EA")] } }, by decide⟩⟩
theorem witness_FrameOperandOfOtherLengthIsRefused :
    ∃ (s s' : State) (f : Bytes) (rest : List HostEvent), f.length ≠ 72 ∧ paramsWf s.params = true ∧
      s.pending = .issue ⟨0x50, [.bytes f]⟩ :: rest ∧ paramsWf s'.params = true ∧
      s'.pending = .issue ⟨0x60, [.bytes f]⟩ :: rest :=
  ⟨{ someState with pending := [.issue ⟨0x50, [.bytes (List.replicate 71 0x00)]⟩] },
    { someState with pending := [.issue ⟨0x60, [.bytes (List.replicate 71 0x00)]⟩] },
    List.replicate 71 0x00, [], by decide, by decide, rfl, by decide, rfl⟩
/-- An operation, a reserved selector with operands, and a reset: the interface accepts all three. -/
def readyState : State :=
  { someState with pending := [.issue ⟨0x10, [.byte 0x55]⟩, .issue ⟨0x74, [.nat 1]⟩, .reset] }
theorem readyState_ready : Ready readyState := by
  refine ⟨by decide, fun e he => ?_⟩
  simp only [readyState, List.mem_cons, List.not_mem_nil, or_false] at he
  rcases he with rfl | rfl | rfl
  · intro o h; exact absurd h (by rw [show decode ⟨0x10, [.byte 0x55]⟩ = .ok (.crcFeed 0x55) from by decide]; simp)
  · intro o h; exact absurd h (by rw [show decode ⟨0x74, [.nat 1]⟩ = .reserved 0x74 from by decide]; simp)
  · trivial
theorem witness_ReadyStateStepsToReadyState : ∃ s : State, Ready s := ⟨readyState, readyState_ready⟩
theorem witness_EveryIssuedOperationGetsOneReply : ∃ s : State, Ready s ∧ s.pending.countP isIssue = 2 :=
  ⟨readyState, readyState_ready, by decide⟩
theorem witness_CrcIsTheFoldOfTheHostsEvents :
    ∃ s t : State, Ready s ∧ core.run s.pending.length s = .next t := ⟨readyState, _, readyState_ready, rfl⟩
theorem witness_EveryStepKeepsInvariant : ∃ s t : State, Inv s ∧ step s = .next t := by
  refine ⟨readyState, _, ⟨by decide, fun r hr => ?_⟩, rfl⟩
  simp only [readyState, someState, List.mem_singleton] at hr
  subst hr; trivial
theorem witness_NoStepChangesTheParameters : ∃ s t : State, step s = .next t := ⟨readyState, _, rfl⟩
theorem witness_DecodeOfEncodeIsTheInstruction : ∃ i : Instr, i.wf = true := ⟨.hdrDec infoFrame, by decide⟩
theorem witness_DecodedRequestIsTheEncoding : ∃ (r : Request) (i : Instr), decode r = .ok i :=
  ⟨⟨0x73, [.byte 0x01]⟩, .lutCart 0x01, by decide⟩
theorem witness_EncodedFramesMatchTheirRow :
    ∃ (i : Instr) (s : State) (f : Bytes) (p : Bytes × Bytes), framePattern i = some p ∧
      exec i s = .next { s with returned := s.returned ++ [.ok (.frame f)] } := ⟨.encWfBegin, someState, _, _, rfl, rfl⟩
theorem witness_OtherOperationsOnlyReply :
    ∃ i : Instr, i.wf = true ∧ i ≠ .crcInit ∧ (∀ b, i ≠ .crcFeed b) :=
  ⟨.frameVal infoFrame, by decide, by simp, by simp⟩
theorem witness_RepliesDependOnOperandsAndParameters :
    (∃ (i : Instr) (s s' t : State) (r : Reply Name), (i = .crcRead → s'.crc = s.crc) ∧ s'.params = s.params ∧
      s'.crc ≠ s.crc ∧ exec i s = .next t ∧ t.returned = s.returned ++ [r]) ∧
    ∃ (s s' t : State) (r : Reply Name), s'.crc = s.crc ∧ s'.params = s.params ∧ s'.returned ≠ s.returned ∧
      exec .crcRead s = .next t ∧ t.returned = s.returned ++ [r] :=
  ⟨⟨.lutManuf 0x01, someState, State.reset, _, _, by simp, rfl, by decide, rfl, rfl⟩,
    ⟨someState, { someState with returned := [] }, _, _, rfl, rfl, by decide, rfl, rfl⟩⟩
theorem witness_RepeatedOperationRepeatsItsReply :
    ∃ (i : Instr) (s t : State) (r : Reply Name), (∀ b, i ≠ .crcFeed b) ∧
      exec i s = .next t ∧ t.returned = s.returned ++ [r] := ⟨.crcInit, someState, _, _, by simp, rfl, rfl⟩
/-- One error of each kind that a statement about errors names. -/
theorem witness_ErrorsChangeNothing :
    ∀ i ∈ [Instr.encWrPacket [], .encRdFlash [], .encRdRam []],
      ∃ (s t : State) (e : Error), exec i s = .next t ∧ t.returned = s.returned ++ [.error e] := by
  intro i hi
  simp only [List.mem_cons, List.not_mem_nil, or_false] at hi
  rcases hi with rfl | rfl | rfl <;> exact ⟨someState, _, _, rfl, rfl⟩
theorem witness_ErrorsComeFromTheirOperations :
    replyOf (.frameEnc (List.replicate 71 0x00)) = some (.error (.overlength 71 70)) ∧
    replyOf (.encWfPacket 0 (List.replicate 65 0x00)) = some (.error (.overlength 65 64)) ∧
    replyOf (.encWfPacket 16777216 []) = some (.error (.indexRange 16777216 16777216)) ∧
    replyOf (.hdrDec (flipBit infoFrame 24)) = some (.error (.checksumMismatch 0x8F7E 0x9936)) := by decide +kernel
theorem witness_FedCrcAgreesWithSpanCrc :
    ∃ is : List Instr, (∀ i ∈ is, i.wf = true ∧ i ≠ .crcInit) ∧ fedBytes is = [0x55, 0x04] :=
  ⟨[.crcFeed 0x55, .encInfo, .crcRead, .crcFeed 0x04], by decide, by decide⟩
theorem witness_CrcSpanReturnsTheSpanCrc :
    ∃ (b : Bytes) (s : State) (rest : List HostEvent), paramsWf s.params = true ∧
      s.pending = (crcSpan b).map (fun i => .issue (encode i)) ++ rest :=
  ⟨[0x55], { someState with pending := (crcSpan [0x55]).map (fun i => .issue (encode i)) ++ [.reset] }, [.reset],
    by decide, rfl⟩
theorem witness_CrcIsLinear : ∃ a b : Bytes, a.length = b.length ∧ a ≠ b := ⟨[0x01, 0x02], [0x03, 0x04], rfl, by decide⟩
theorem witness_SealedFrameHasZeroResidue :
    ∃ (f : Bytes) (s : State), exec (.frameVal f) s = .next { s with returned := s.returned ++ [.ok (.frame f)] } :=
  ⟨infoFrame, someState, frameVal_of_checksum (by decide) checksum_info _⟩
/-- 70 bytes is the longest sequence, 71 the shortest that is too long. -/
theorem witness_FrameEncBuildsTheFrame :
    (∃ b : Bytes, b.length ≤ 70 ∧ b.length = 70) ∧ ∃ b : Bytes, b.length > 70 ∧ b.length = 71 :=
  ⟨⟨List.replicate 70 0xFF, by decide, by decide⟩, ⟨List.replicate 71 0xFF, by decide, by decide⟩⟩
theorem witness_PacketFrameFieldByField : ∃ (g : Nat) (c : Bytes), c.length ≤ 64 ∧ g < 2 ^ 24 :=
  ⟨2 ^ 24 - 1, List.replicate 64 0x5A, by decide, by decide⟩
theorem witness_PacketErrorsInOrder :
    (∃ c : Bytes, c.length > 64) ∧ ∃ (g : Nat) (c : Bytes), c.length ≤ 64 ∧ g ≥ 2 ^ 24 :=
  ⟨⟨List.replicate 65 0x00, by decide⟩, ⟨2 ^ 24, List.replicate 64 0x00, by decide, by decide⟩⟩
/-- Two packets with one index and different chunks. -/
theorem witness_PacketFieldsIdentifyThePacket :
    ∃ (g g' : Nat) (c c' f f' : Bytes) (s : State),
      exec (.encWfPacket g c) s = .next { s with returned := s.returned ++ [.ok (.frame f)] } ∧
      exec (.encWfPacket g' c') s = .next { s with returned := s.returned ++ [.ok (.frame f')] } ∧
      (f.drop 3).take 3 = (f'.drop 3).take 3 :=
  ⟨256, 256, [0x01], [0x02], _, _, someState, rfl, rfl, by decide +kernel⟩
theorem witness_StreamedImageStandsInThePackets : ∃ image : Bytes, image.length ≤ 2 ^ 30 ∧ image ≠ [] :=
  ⟨List.replicate 65 0x11, by decide, by decide⟩
theorem witness_FrameValComparesTheChecksums :
    (∃ f : Bytes, f.length = 72 ∧ (crc16x (f.take 70)).toNat = 256 * (f.getD 70 0).toNat + (f.getD 71 0).toNat) ∧
    ∃ f : Bytes, f.length = 72 ∧ (crc16x (f.take 70)).toNat ≠ 256 * (f.getD 70 0).toNat + (f.getD 71 0).toNat :=
  ⟨⟨infoFrame, by decide, by decide +kernel⟩, ⟨flipBit infoFrame 24, by decide, by decide +kernel⟩⟩
theorem witness_ValidatorAcceptsEveryEncodedFrame :
    (∃ b : Bytes, b.length ≤ 70) ∧
    ∃ (i : Instr) (s : State) (f : Bytes), framePattern i ≠ none ∧
      exec i s = .next { s with returned := s.returned ++ [.ok (.frame f)] } :=
  ⟨⟨List.replicate 70 0x01, by decide⟩, ⟨.encInfo, someState, _, by decide, rfl⟩⟩
/-- The first and the last bit of the frame. -/
theorem witness_EverySingleBitErrorIsDetected :
    ∀ k ∈ [0, 575], ∃ (f : Bytes) (s : State), f.length = 72 ∧ k < 576 ∧
      exec (.frameVal f) s = .next { s with returned := s.returned ++ [.ok (.frame f)] } := by
  intro k hk
  refine ⟨infoFrame, someState, by decide, ?_, frameVal_of_checksum (by decide) checksum_info _⟩
  simp only [List.mem_cons, List.not_mem_nil, or_false] at hk
  omega
/-- The lowest and the highest offset. -/
theorem witness_FieldWrittenBigEndianReadsBack :
    ∀ a ∈ [0, 70], ∃ f : Bytes, f.length = 72 ∧ a + 2 ≤ 72 := by
  intro a ha
  refine ⟨infoFrame, by decide, ?_⟩
  simp only [List.mem_cons, List.not_mem_nil, or_false] at ha
  omega
theorem witness_DecoderRejectsMismatchFirst :
    ∃ f : Bytes, f.length = 72 ∧
      (crc16x (f.take 70)).toNat ≠ 256 * (f.getD 70 0).toNat + (f.getD 71 0).toNat :=
  ⟨flipBit frameV5 256, by decide, by decide +kernel⟩
theorem sealed_v5 : Sealed frameV5 := by unfold Sealed; decide +kernel
theorem sealed_v3 : Sealed frameV3 := by unfold Sealed; decide +kernel
theorem sealed_v3b : Sealed frameV3b := by unfold Sealed; decide +kernel
theorem witness_DecoderIsTotalOnSealedFrames : ∃ f : Bytes, Sealed f := ⟨frameV5, sealed_v5⟩
theorem witness_LogoInvalidRecord :
    ∃ (f : Bytes) (s : State), Sealed f ∧
      predHolds s.params.logoValidPred (f.getD s.params.respLayout.logo 0) = false :=
  ⟨frameV3b, someState, sealed_v3b, by decide⟩
theorem witness_LogoValidRecord :
    ∃ (f : Bytes) (s : State) (l : RespLayout), Sealed f ∧ l = s.params.respLayout ∧
      predHolds s.params.logoValidPred (f.getD l.logo 0) = true :=
  ⟨frameV5, someState, Config.layoutVL, sealed_v5, rfl, by decide⟩
theorem witness_TitleEndsAtFirstZero :
    ∃ (f : Bytes) (s : State) (info : ReaderInfo Name) (cart : CartridgeInfo Name), paramsWf s.params = true ∧
      exec (.hdrDec f) s = .next { s with returned := s.returned ++ [.ok (.header (.logoValid info cart))] } := by
  refine ⟨frameV5, someState, decodeInfo someState.params frameV5, decodeCart someState.params frameV5, by decide, ?_⟩
  simp only [exec, execHdrDec, withFrame_of_length (show frameV5.length = 72 by decide), checksum_v5, finish, giveReply,
    show decodeHeader someState.params frameV5 = .logoValid (decodeInfo someState.params frameV5)
      (decodeCart someState.params frameV5) from by decide +kernel]
/-- Two different frames, equal at FW, MANUF, DEVID and LOGO. -/
theorem witness_LogoInvalidIgnoresCartridgeBytes :
    ∃ (f f' : Bytes) (s : State), f ≠ f' ∧ Sealed f ∧ Sealed f' ∧
      (∀ k ∈ [RespField.fw, .manuf, .devid, .logo],
        f[fieldOff s.params.respLayout k]? = f'[fieldOff s.params.respLayout k]?) ∧
      predHolds s.params.logoValidPred (f.getD s.params.respLayout.logo 0) = false :=
  ⟨frameV3, frameV3b, someState, by decide, sealed_v3, sealed_v3b, by decide, by decide⟩
theorem witness_FieldsLieInsideTheBody :
    ∃ (p : Params Name) (f : Bytes) (k : RespField), paramsWf p = true ∧ f.length = 72 ∧
      fieldOff p.respLayout k + fieldWidth k = 70 :=
  ⟨{ Config.testInst with respLayout := { Config.layoutVL with title := 54 } }, infoFrame, .title, by decide, by decide,
    by decide⟩
/-- One selector for each of the four clauses. -/
theorem witness_MultiplexerSelectsByTheLowBits :
    (∀ o ∈ ([0x70, 0x71, 0x73] : List Byte), ∃ (s : State) (a : Byte) (rest : List HostEvent) (t : CodeTable Byte Name),
      paramsWf s.params = true ∧ o.toNat / 4 = 0x1C ∧ s.pending = .issue ⟨o, [.byte a]⟩ :: rest ∧
      ((o.toNat % 4 = 0 ∧ t = s.params.manufTable) ∨ (o.toNat % 4 = 1 ∧ t = s.params.oldLicTable) ∨
        (o.toNat % 4 = 3 ∧ t = s.params.cartTypeTable))) ∧
    ∃ (s : State) (o a b : Byte) (rest : List HostEvent), paramsWf s.params = true ∧ o.toNat / 4 = 0x1C ∧
      s.pending = .issue ⟨o, [.byte a, .byte b]⟩ :: rest ∧ o.toNat % 4 = 2 := by
  constructor
  · intro o ho
    simp only [List.mem_cons, List.not_mem_nil, or_false] at ho
    rcases ho with rfl | rfl | rfl
    · exact ⟨{ someState with pending := [.issue ⟨0x70, [.byte 0x01]⟩] }, 0x01, [], Config.testInst.manufTable, by decide,
        by decide, rfl, .inl ⟨by decide, rfl⟩⟩
    · exact ⟨{ someState with pending := [.issue ⟨0x71, [.byte 0x01]⟩] }, 0x01, [], Config.testInst.oldLicTable, by decide,
        by decide, rfl, .inr (.inl ⟨by decide, rfl⟩)⟩
    · exact ⟨{ someState with pending := [.issue ⟨0x73, [.byte 0x01]⟩] }, 0x01, [], Config.testInst.cartTypeTable, by decide,
        by decide, rfl, .inr (.inr ⟨by decide, rfl⟩)⟩
  · exact ⟨{ someState with pending := [.issue ⟨0x72, [.byte 0x31, .byte 0x33]⟩] }, 0x72, 0x31, 0x33, [], by decide,
      by decide, rfl, by decide⟩
theorem witness_SourceEntriesResolveInEveryInstance : ∃ s : State, paramsWf s.params = true := ⟨someState, by decide⟩
/-- With the escape, two states whose old tables differ at 0x33; without it, two different new pairs. -/
theorem witness_LicenseeReadsOnlyItsEntry :
    (∃ (s s' : State) (old n1 n2 m1 m2 : Byte),
      s'.params.oldLicTable.lookup 0x33 ≠ s.params.oldLicTable.lookup 0x33 ∧
      (s'.params.oldLicTable.lookup old = s.params.oldLicTable.lookup old ∨ old = 0x33) ∧
      (old = 0x33 → m1 = n1 ∧ m2 = n2 ∧
        s'.params.newLicTable.lookup (n1, n2) = s.params.newLicTable.lookup (n1, n2)) ∧ old = 0x33) ∧
    ∃ (s s' : State) (old n1 n2 m1 m2 : Byte),
      (s'.params.oldLicTable.lookup old = s.params.oldLicTable.lookup old ∨ old = 0x33) ∧
      (old = 0x33 → m1 = n1 ∧ m2 = n2 ∧
        s'.params.newLicTable.lookup (n1, n2) = s.params.newLicTable.lookup (n1, n2)) ∧ old = 0x01 ∧ m1 ≠ n1 :=
  ⟨⟨someState, { someState with params := { Config.testInst with oldLicTable := [(0x01, "nintendo")] } },
      0x33, 0x31, 0x33, 0x31, 0x33, by decide, by decide, by decide, rfl⟩,
    ⟨someState, someState, 0x01, 0x31, 0x33, 0x00, 0x00, by decide, by decide, rfl, by decide⟩⟩

/-- Names as numbers, renamed to strings: no string type is asked for. -/
theorem witness_RenamingNamesCommutesWithEveryStep :
    ∃ (ρ : Nat → Name) (nm : FixedNames Nat) (s : State.Of Nat), Function.Injective ρ ∧ instWf nm s.params = true ∧
      s.pending ≠ [] :=
  ⟨fun n => String.ofList (List.replicate n 'x'), ⟨1, 2⟩,
    { crc := 0xBEEF
      params :=
        { manufTable := [], oldLicTable := [(0x01, 1)], newLicTable := [((0x31, 0x33), 2)], cartTypeTable := []
          respLayout := Config.layoutVL, logoValidPred := Config.logoNonZero, cgbPred := [], sgbPred := [] }
      pending := [.issue ⟨0x71, [.byte 0x01]⟩], returned := [] },
    fun a b h => by simpa using congrArg String.length h, by decide, by decide⟩

end Sys2Proof.Tests
end

