-- ==== Sys2Proof/Proofs/LicenseeResolution.lean ====
section
/-! The licensee resolver (40_lookup_tables.md R111, R112): its two branches, and the scheme and the name that it
answers. -/

namespace Sys2Proof.Machine

variable {ν : Type} {p : Params ν} {old n1 n2 : Byte}

/-- R112's escape test, read on numbers. -/
theorem eq_licEscape_iff : old = Config.licEscape ↔ old.toNat = 0x33 := BitVec.toNat_inj.symm

/-- With the escape, the pair in the new table (R111). -/
theorem resolveLicensee_of_escape (h : old.toNat = 0x33) :
    resolveLicensee p old n1 n2 = (.new, resolve p.newLicTable (n1, n2)) := if_pos (eq_licEscape_iff.mpr h)

/-- Without it, the old byte in the old table (R111). -/
theorem resolveLicensee_of_not_escape (h : old.toNat ≠ 0x33) :
    resolveLicensee p old n1 n2 = (.old, resolve p.oldLicTable old) := if_neg (mt eq_licEscape_iff.mp h)

/-- Only the escape selects the new scheme (R112). -/
theorem resolveLicensee_scheme_eq_new : (resolveLicensee p old n1 n2).1 = .new ↔ old.toNat = 0x33 := by
  by_cases h : old.toNat = 0x33
  · simp [resolveLicensee_of_escape h, h]
  · simp [resolveLicensee_of_not_escape h, h]

/-- The name is the one of the table that the escape selects, and of no other (R111). -/
theorem resolveLicensee_name_eq_known {n : ν} :
    (resolveLicensee p old n1 n2).2 = .known n ↔
      (old.toNat = 0x33 ∧ tableGet p.newLicTable (n1, n2) = some n) ∨
      (old.toNat ≠ 0x33 ∧ tableGet p.oldLicTable old = some n) := by
  by_cases h : old.toNat = 0x33
  · simp [resolveLicensee_of_escape h, h, resolve_eq_known]
  · simp [resolveLicensee_of_not_escape h, h, resolve_eq_known]

/-- LIC.RES returns the resolver's scheme and name, and only gives that reply (R111). -/
theorem exec_licRes (old n1 n2 : Byte) (s : State) :
    exec (.licRes old n1 n2) s =
      .next (giveReply (.ok (.licensee (resolveLicensee s.params old n1 n2).1
        (resolveLicensee s.params old n1 n2).2)) s) := rfl

/-- Settles O54: the reply is the resolver's answer, whose scheme and name are decided by the escape test. -/
theorem licenseeSchemeFollowsTheEscape : Obligations.LicenseeSchemeFollowsTheEscape := by
  intro s old n1 n2
  exact ⟨rfl, _, _, exec_licRes old n1 n2 s, resolveLicensee_scheme_eq_new,
    fun _ => resolveLicensee_name_eq_known⟩

end Sys2Proof.Machine
end

