-- ==== Sys2Proof/Proofs/FixedCommandFrames.lean ====
section
/-! The command encoders without operands (42_frame_codec.md R152 to R156): what a command frame is once the checksum
of its body is known, the checksum of each body, and the frame of each encoder. -/

namespace Sys2Proof.Machine

/-- A command frame is its prefix, zeros up to byte 70, then the checksum `v` of those 70 bytes, high byte first (R60). -/
theorem commandFrame_of_crc16x {p : Bytes} {v : U16} (h : crc16x (padTo 70 p) = v) :
    commandFrame p = p ++ List.replicate (70 - p.length) 0x00 ++ be16Bytes v := by
  rw [← h]; rfl

/-! ## The checksums of the fixed bodies -/

theorem crc16x_infoBody : crc16x (padTo 70 infoPrefix) = 0x9936 := by decide +kernel
theorem crc16x_eraseFlashBody : crc16x (padTo 70 eraseFlashPrefix) = 0x1A7A := by decide +kernel
theorem crc16x_eraseRamBody : crc16x (padTo 70 eraseRamPrefix) = 0x208D := by decide +kernel
theorem crc16x_wfBeginBody : crc16x (padTo 70 wfBeginPrefix) = 0xB030 := by decide +kernel

/-- The Status request has the prefix of the Info request (R68). -/
theorem statusPrefix_eq_infoPrefix : statusPrefix = infoPrefix := rfl

/-! ## The encoders: each returns the command frame of its prefix, and only gives that reply -/

theorem exec_encInfo (s : State) :
    exec .encInfo s = .next (giveReply (.ok (.frame (commandFrame infoPrefix))) s) := rfl
theorem exec_encStatus (s : State) :
    exec .encStatus s = .next (giveReply (.ok (.frame (commandFrame statusPrefix))) s) := rfl
theorem exec_encEraseFlash (s : State) :
    exec .encEraseFlash s = .next (giveReply (.ok (.frame (commandFrame eraseFlashPrefix))) s) := rfl
theorem exec_encEraseRam (s : State) :
    exec .encEraseRam s = .next (giveReply (.ok (.frame (commandFrame eraseRamPrefix))) s) := rfl
theorem exec_encWfBegin (s : State) :
    exec .encWfBegin s = .next (giveReply (.ok (.frame (commandFrame wfBeginPrefix))) s) := rfl

/-- Settles O34: each encoder returns the command frame of its prefix, whose last two bytes are the checksum of the
padded prefix; Status is Info because their prefixes are equal. -/
theorem fixedCommandFrames : Obligations.FixedCommandFrames := by
  intro s
  refine ⟨?info, ?status, ?eraseFlash, ?eraseRam, ?wfBegin, rfl, rfl, rfl, rfl, rfl⟩
  case info => rw [exec_encInfo, commandFrame_of_crc16x crc16x_infoBody]; rfl
  case status => rw [exec_encStatus, statusPrefix_eq_infoPrefix, commandFrame_of_crc16x crc16x_infoBody]; rfl
  case eraseFlash => rw [exec_encEraseFlash, commandFrame_of_crc16x crc16x_eraseFlashBody]; rfl
  case eraseRam => rw [exec_encEraseRam, commandFrame_of_crc16x crc16x_eraseRamBody]; rfl
  case wfBegin => rw [exec_encWfBegin, commandFrame_of_crc16x crc16x_wfBeginBody]; rfl

end Sys2Proof.Machine
end

