-- ==== Sys2Proof/Proofs/RequestDecoding.lean ====
section
/-! The decoder against the encoder (30_encoding.md R71 to R73, R76): what each operand form accepts, that decoding
and encoding are inverse to each other, and which selectors are reserved. -/

namespace Sys2Proof

open Machine

/-! ## The operand forms: which operands each accepts, and that none reports a reserved selector -/

section OperandForms

variable {o r : Byte} {ops : List Operand} {i : Instr}

theorem takeNone_eq_ok {j : Instr} : takeNone o j ops = .ok i ↔ ops = [] ∧ i = j := by
  unfold takeNone; split <;> simp_all [eq_comm]

theorem takeB_eq_ok {mk : Byte → Instr} : takeB o mk ops = .ok i ↔ ∃ b, ops = [.byte b] ∧ i = mk b := by
  unfold takeB; split <;> simp_all [eq_comm]

theorem takeB2_eq_ok {mk : Byte → Byte → Instr} :
    takeB2 o mk ops = .ok i ↔ ∃ a b, ops = [.byte a, .byte b] ∧ i = mk a b := by
  unfold takeB2; split <;> simp_all [eq_comm]

theorem takeB3_eq_ok {mk : Byte → Byte → Byte → Instr} :
    takeB3 o mk ops = .ok i ↔ ∃ a b c, ops = [.byte a, .byte b, .byte c] ∧ i = mk a b c := by
  unfold takeB3; split <;> simp_all [eq_comm]

theorem takeS_eq_ok {mk : Bytes → Instr} : takeS o mk ops = .ok i ↔ ∃ s, ops = [.bytes s] ∧ i = mk s := by
  unfold takeS; split <;> simp_all [eq_comm]

theorem takeGC_eq_ok {mk : Nat → Bytes → Instr} :
    takeGC o mk ops = .ok i ↔ ∃ g c, ops = [.nat g, .bytes c] ∧ i = mk g c := by
  unfold takeGC; split <;> simp_all [eq_comm]

theorem takeF_eq_ok {mk : Bytes → Instr} :
    takeF o mk ops = .ok i ↔ ∃ f, ops = [.bytes f] ∧ isFrame f = true ∧ i = mk f := by
  unfold takeF; split
  next f =>
    by_cases hf : isFrame f = true
    · simp [hf, eq_comm (a := i)]
    · simp [hf]
  · simp_all

@[simp] theorem takeNone_ne_reserved {j : Instr} : takeNone o j ops ≠ .reserved r := by
  unfold takeNone; split <;> simp

@[simp] theorem takeB_ne_reserved {mk : Byte → Instr} : takeB o mk ops ≠ .reserved r := by
  unfold takeB; split <;> simp

@[simp] theorem takeB2_ne_reserved {mk : Byte → Byte → Instr} : takeB2 o mk ops ≠ .reserved r := by
  unfold takeB2; split <;> simp

@[simp] theorem takeB3_ne_reserved {mk : Byte → Byte → Byte → Instr} : takeB3 o mk ops ≠ .reserved r := by
  unfold takeB3; split <;> simp

@[simp] theorem takeS_ne_reserved {mk : Bytes → Instr} : takeS o mk ops ≠ .reserved r := by
  unfold takeS; split <;> simp

@[simp] theorem takeGC_ne_reserved {mk : Nat → Bytes → Instr} : takeGC o mk ops ≠ .reserved r := by
  unfold takeGC; split <;> simp

@[simp] theorem takeF_ne_reserved {mk : Bytes → Instr} : takeF o mk ops ≠ .reserved r := by
  unfold takeF; split
  · split <;> simp
  · simp

end OperandForms

/-! ## Decoding and encoding -/

/-- The decoder gives back every well-formed instruction that the encoder writes. -/
theorem decode_encode {i : Instr} (h : i.wf = true) : decode (encode i) = .ok i := by
  cases i
  case frameVal f => exact takeF_eq_ok.mpr ⟨f, rfl, h, rfl⟩
  case hdrDec f => exact takeF_eq_ok.mpr ⟨f, rfl, h, rfl⟩
  all_goals rfl

/-- A request is its selector, as a number, with its operands. -/
theorem request_eq {r : Request} {o : Byte} {ops : List Operand} (ho : r.opsel.toNat = o.toNat)
    (h : r.operands = ops) : (⟨o, ops⟩ : Request) = r := by
  rw [← h, ← BitVec.toNat_inj.mp ho]

/-- A request that decodes is what the encoder writes for the instruction, which is well-formed. -/
theorem wf_and_encode_of_decode {r : Request} {i : Instr} (h : decode r = .ok i) : i.wf = true ∧ encode i = r := by
  unfold decode at h
  split at h
  case h_1 ho | h_3 ho | h_5 ho | h_6 ho | h_7 ho | h_8 ho | h_9 ho =>
    obtain ⟨hops, rfl⟩ := takeNone_eq_ok.mp h
    exact ⟨rfl, request_eq ho hops⟩
  case h_2 ho | h_16 ho | h_17 ho | h_19 ho =>
    obtain ⟨_, hops, rfl⟩ := takeB_eq_ok.mp h
    exact ⟨rfl, request_eq ho hops⟩
  case h_4 ho =>
    obtain ⟨_, hops, rfl⟩ := takeS_eq_ok.mp h
    exact ⟨rfl, request_eq ho hops⟩
  case h_10 ho =>
    obtain ⟨_, _, hops, rfl⟩ := takeGC_eq_ok.mp h
    exact ⟨rfl, request_eq ho hops⟩
  case h_11 ho | h_12 ho | h_13 ho =>
    cases h
    exact ⟨rfl, request_eq ho rfl⟩
  case h_14 ho | h_15 ho =>
    obtain ⟨_, hops, hf, rfl⟩ := takeF_eq_ok.mp h
    exact ⟨hf, request_eq ho hops⟩
  case h_18 ho =>
    obtain ⟨_, _, hops, rfl⟩ := takeB2_eq_ok.mp h
    exact ⟨rfl, request_eq ho hops⟩
  case h_20 ho =>
    obtain ⟨_, _, _, hops, rfl⟩ := takeB3_eq_ok.mp h
    exact ⟨rfl, request_eq ho hops⟩
  case h_21 => cases h

/-! ## Reserved selectors -/

/-- R72's ranges are what the selectors of the opcode table leave. -/
theorem reservedSelector_iff {o : Byte} : ReservedSelector o ↔ ∀ row ∈ opcodeTable, o ≠ row.matched := by
  have hlt := o.isLt
  simp only [ReservedSelector, opcodeTable, List.cons_append, List.nil_append, List.forall_mem_cons,
    List.not_mem_nil, false_imp_iff, implies_true, and_true, ne_eq, BitVec.ofNat_eq_ofNat, ← BitVec.toNat_inj,
    BitVec.toNat_ofNat]
  omega

/-- The decoder reports the reserved selectors of R72 and no other, whatever the operands are. -/
theorem decode_eq_reserved {r : Request} {o : Byte} :
    decode r = .reserved o ↔ ReservedSelector r.opsel ∧ o = r.opsel := by
  have hlt := r.opsel.isLt
  unfold decode ReservedSelector
  split
  case h_21 =>
    rw [Decoded.reserved.injEq, eq_comm (a := r.opsel), iff_and_self]
    intro _
    simp only [imp_false] at *
    omega
  all_goals simp [*]

/-- Every row of the opcode table compares the whole selector. -/
theorem opcodeTable_mask : ∀ row ∈ opcodeTable, row.mask = BitVec.allOnes 8 := by decide

/-- The opcode table has no row for the reserved selectors of R72 and for no other (R76). -/
theorem opcodeRow_eq_none {o : Byte} : opcodeRow o = none ↔ ReservedSelector o := by
  rw [opcodeRow, List.find?_eq_none, reservedSelector_iff]
  refine forall₂_congr fun row hrow => ?_
  rw [opcodeTable_mask row hrow, BitVec.and_allOnes, beq_iff_eq]

/-- Settles O14: by `decode_encode`, constructor by constructor. -/
theorem decodeOfEncodeIsTheInstruction : Obligations.DecodeOfEncodeIsTheInstruction :=
  fun _ => decode_encode

/-- Settles O15: by `wf_and_encode_of_decode`, one branch of the decoder for each selector. -/
theorem decodedRequestIsTheEncoding : Obligations.DecodedRequestIsTheEncoding :=
  fun _ _ => wf_and_encode_of_decode

/-- Settles O16: the table and the decoder each leave the selectors that R72 lists. -/
theorem selectorsAreReservedAsListed : Obligations.SelectorsAreReservedAsListed := by
  intro o ops
  exact ⟨opcodeRow_eq_none, by simp [decode_eq_reserved]⟩

/-- Settles O17: each request is looked up in the selector map. -/
theorem writtenRequestsDecode : Obligations.WrittenRequestsDecode :=
  ⟨rfl, rfl, rfl, rfl, rfl, rfl, rfl⟩

end Sys2Proof
end

