-- ==== Sys2Proof/Proofs/OperationReplies.lean ====
section
/-! What an operation does, said once for all of them (10_state.md R22, 60_exceptions.md R220, R227): a well-formed
operation gives one reply, `replyTo`, and leaves `CRC` at `crcLeftBy`; any other is refused. The statements on what
operations leave unchanged follow from it. -/

namespace Sys2Proof.Machine

variable {ν : Type}

/-- What an operation leaves in `CRC`: only CRC.INIT and CRC.FEED write it (R22). -/
def crcLeftBy (i : Instr) (c : U16) : U16 :=
  match i with
  | .crcInit => 0x0000
  | .crcFeed b => crcStep c b
  | _ => c

/-- The reply to an operation on a frame: the checksum error, or the result `r` (R161, R180). -/
def checkedReply (f : Bytes) (r : Result ν) : Reply ν :=
  match checksumError f with
  | some e => .error e
  | none => .ok r

/-- The reply of an operation, a function of its operands, the parameters and `CRC`. -/
def replyTo (i : Instr) (p : Params ν) (c : U16) : Reply ν :=
  match i with
  | .crcInit => .ok .none
  | .crcFeed _ => .ok .none
  | .crcRead => .ok (.word c)
  | .frameEnc b => if b.length > 70 then .error (.overlength b.length 70) else .ok (.frame (commandFrame b))
  | .encInfo => .ok (.frame (commandFrame infoPrefix))
  | .encStatus => .ok (.frame (commandFrame statusPrefix))
  | .encEraseFlash => .ok (.frame (commandFrame eraseFlashPrefix))
  | .encEraseRam => .ok (.frame (commandFrame eraseRamPrefix))
  | .encWfBegin => .ok (.frame (commandFrame wfBeginPrefix))
  | .encWfPacket g b =>
    if b.length > 64 then .error (.overlength b.length 64)
    else if g ≥ 2 ^ 24 then .error (.indexRange g (2 ^ 24))
    else .ok (.frame (sealBody (packetBody g b)))
  | .encWrPacket _ => .error (.unsupportedCommand .writeRamPacket)
  | .encRdFlash _ => .error (.unsupportedCommand .readFlash)
  | .encRdRam _ => .error (.unsupportedCommand .readRam)
  | .frameVal f => checkedReply f (.frame f)
  | .hdrDec f => checkedReply f (.header (decodeHeader p f))
  | .lutManuf code => .ok (.resolved (resolve p.manufTable code))
  | .lutOldlic code => .ok (.resolved (resolve p.oldLicTable code))
  | .lutNewlic n1 n2 => .ok (.resolved (resolve p.newLicTable (n1, n2)))
  | .lutCart code => .ok (.resolved (resolve p.cartTypeTable code))
  | .licRes old n1 n2 => .ok (.licensee (resolveLicensee p old n1 n2).1 (resolveLicensee p old n1 n2).2)

/-! ## The checksum test and the reply -/

theorem checkedReply_of_none {f : Bytes} {r : Result ν} (h : checksumError f = none) : checkedReply f r = .ok r := by
  rw [checkedReply, h]

theorem checkedReply_of_some {f : Bytes} {r : Result ν} {e : Error} (h : checksumError f = some e) :
    checkedReply f r = .error e := by
  rw [checkedReply, h]

theorem checkedReply_eq_ok {f : Bytes} {r r' : Result ν} :
    checkedReply f r = .ok r' ↔ checksumError f = none ∧ r = r' := by
  unfold checkedReply; split <;> simp [*]

theorem checkedReply_eq_error {f : Bytes} {r : Result ν} {e : Error} :
    checkedReply f r = .error e ↔ checksumError f = some e := by
  unfold checkedReply; split <;> simp [*]

/-- Testing the checksum and then ending the operation is giving the checked reply. -/
theorem checksum_then_finish (f : Bytes) (r : Result ν) (s : State.Of ν) :
    (match checksumError f with
      | some e => raiseError e s
      | none => finish r s) = .next (giveReply (checkedReply f r) s) := by
  unfold checkedReply; split <;> rfl

/-- Choosing between two ways to end an operation is choosing the reply. -/
theorem next_giveReply_ite (c : Prop) [Decidable c] (r r' : Reply ν) (s : State.Of ν) :
    (if c then .next (giveReply r s) else .next (giveReply r' s) : OutcomeOf ν) =
      .next (giveReply (if c then r else r') s) := by
  split <;> rfl

/-! ## Every operation -/

theorem wf_frameVal {f : Bytes} : (Instr.frameVal f).wf = true ↔ f.length = 72 := beq_iff_eq
theorem wf_hdrDec {f : Bytes} : (Instr.hdrDec f).wf = true ↔ f.length = 72 := beq_iff_eq

/-- A well-formed operation completes: it gives its one reply and leaves `CRC` as `crcLeftBy` says. -/
theorem operate_of_wf {i : Instr} (h : i.wf = true) (s : State.Of ν) :
    operate i s = .next (giveReply (replyTo i s.params s.crc) (setCrc (crcLeftBy i s.crc) s)) := by
  cases i
  case frameEnc b =>
    rw [operate, execFrameEnc, raiseError_next, finish_next, next_giveReply_ite]
    rfl
  case encWfPacket g b =>
    rw [operate, execEncWfPacket, raiseError_next, raiseError_next, finish_next, next_giveReply_ite, next_giveReply_ite]
    rfl
  case frameVal f =>
    rw [operate, execFrameVal, withFrame_of_length (wf_frameVal.mp h)]
    exact checksum_then_finish f _ s
  case hdrDec f =>
    rw [operate, execHdrDec, withFrame_of_length (wf_hdrDec.mp h)]
    exact checksum_then_finish f _ s
  all_goals rfl

/-- An operation on a frame of another length than 72 bytes is refused (R73, D26). -/
theorem operate_of_not_wf {i : Instr} (h : i.wf = false) (s : State.Of ν) :
    operate i s = .refused (.illTypedRequest (encode i).opsel) := by
  cases i
  case frameVal f =>
    rw [operate, execFrameVal, withFrame_of_length_ne (mt wf_frameVal.mpr (Bool.eq_false_iff.mp h))]
    rfl
  case hdrDec f =>
    rw [operate, execHdrDec, withFrame_of_length_ne (mt wf_hdrDec.mpr (Bool.eq_false_iff.mp h))]
    rfl
  all_goals cases h

/-- `exec` is the block's way of running an operation, at strings. -/
theorem exec_eq_operate (i : Instr) (s : State) : exec i s = operate i s := by cases i <;> rfl

theorem exec_of_wf {i : Instr} (h : i.wf = true) (s : State) :
    exec i s = .next (giveReply (replyTo i s.params s.crc) (setCrc (crcLeftBy i s.crc) s)) := by
  rw [exec_eq_operate, operate_of_wf h]

theorem exec_of_not_wf {i : Instr} (h : i.wf = false) (s : State) :
    exec i s = .refused (.illTypedRequest (encode i).opsel) := by
  rw [exec_eq_operate, operate_of_not_wf h]

/-- An operation that completes is well-formed, and its next state is the one that its reply and `CRC` say. -/
theorem exec_eq_next {i : Instr} {s t : State} :
    exec i s = .next t ↔
      i.wf = true ∧ t = giveReply (replyTo i s.params s.crc) (setCrc (crcLeftBy i s.crc) s) := by
  cases h : i.wf
  · simp [exec_of_not_wf h]
  · simp [exec_of_wf h, eq_comm]

/-- The reply that an operation added is `replyTo`. -/
theorem reply_of_exec {i : Instr} {s t : State} {r : Reply Name} (h : exec i s = .next t)
    (hr : t.returned = s.returned ++ [r]) : r = replyTo i s.params s.crc := by
  obtain ⟨-, rfl⟩ := exec_eq_next.mp h
  simpa [eq_comm] using hr

/-! ## What the operations leave unchanged -/

theorem crcLeftBy_of_ne {i : Instr} (hi : i ≠ .crcInit) (hf : ∀ b, i ≠ .crcFeed b) (c : U16) : crcLeftBy i c = c := by
  unfold crcLeftBy; split <;> simp_all

/-- Only CRC.READ's reply depends on `CRC`. -/
theorem replyTo_congr_crc {i : Instr} {p : Params ν} {c c' : U16} (h : i = .crcRead → c' = c) :
    replyTo i p c' = replyTo i p c := by
  cases i
  case crcRead => rw [h rfl]
  all_goals rfl

/-- Running an operation again on its own result gives the same reply, CRC.FEED included. -/
theorem replyTo_crcLeftBy (i : Instr) (p : Params ν) (c : U16) : replyTo i p (crcLeftBy i c) = replyTo i p c := by
  refine replyTo_congr_crc fun h => ?_
  rw [h]; rfl

/-- Every operation but CRC.FEED leaves the `CRC` that it left before. -/
theorem crcLeftBy_idem {i : Instr} (hf : ∀ b, i ≠ .crcFeed b) (c : U16) :
    crcLeftBy i (crcLeftBy i c) = crcLeftBy i c := by
  by_cases hi : i = .crcInit
  · rw [hi]; rfl
  · simp only [crcLeftBy_of_ne hi hf]

/-- An operation that writes `CRC` raises no error. -/
theorem crcLeftBy_of_error {i : Instr} {p : Params ν} {c : U16} {e : Error} (h : replyTo i p c = .error e) :
    crcLeftBy i c = c := by
  refine crcLeftBy_of_ne ?_ ?_ c
  · rintro rfl; cases h
  · rintro b rfl; cases h

/-- Settles O19: `CRC` is written back unchanged. -/
theorem otherOperationsOnlyReply : Obligations.OtherOperationsOnlyReply := by
  intro i s hwf hi hf
  exact ⟨_, by rw [exec_of_wf hwf, crcLeftBy_of_ne hi hf]; rfl⟩

/-- Settles O20: `replyTo` reads the parameters and, for CRC.READ, `CRC`. -/
theorem repliesDependOnOperandsAndParameters : Obligations.RepliesDependOnOperandsAndParameters := by
  intro i s s' t r hcrc hparams h hr
  obtain ⟨hwf, -⟩ := exec_eq_next.mp h
  refine ⟨_, exec_of_wf hwf s', ?_⟩
  rw [reply_of_exec h hr, hparams, replyTo_congr_crc hcrc]
  rfl

/-- Settles O21: the reply and `CRC` are those that the first issue gave. -/
theorem repeatedOperationRepeatsItsReply : Obligations.RepeatedOperationRepeatsItsReply := by
  intro i s t r hf h hr
  have hreply := reply_of_exec h hr
  obtain ⟨hwf, rfl⟩ := exec_eq_next.mp h
  rw [exec_of_wf hwf, hreply]
  simp only [giveReply_params, giveReply_crc, setCrc_params, setCrc_crc, replyTo_crcLeftBy, crcLeftBy_idem hf]
  rfl

/-- Settles O22: no operation that raises writes `CRC`. -/
theorem errorsChangeNothing : Obligations.ErrorsChangeNothing := by
  intro i s t e h hr
  have hreply := reply_of_exec h hr
  obtain ⟨-, rfl⟩ := exec_eq_next.mp h
  rw [crcLeftBy_of_error hreply.symm, ← hreply]
  rfl

/-- Settles O24: both operations are well-formed, and their replies are `none` and `CRC`. -/
theorem crcInitClearsAndReadReturns : Obligations.CrcInitClearsAndReadReturns :=
  fun s => ⟨rfl, exec_of_wf rfl s, rfl, exec_of_wf rfl s⟩

/-- Settles O39: the replies of the three encoders do not look at the operands. -/
theorem encodersWithoutBytesReturnUnsupported : Obligations.EncodersWithoutBytesReturnUnsupported :=
  fun _ s => ⟨rfl, exec_of_wf rfl s, rfl, exec_of_wf rfl s, rfl, exec_of_wf rfl s⟩

/-- Settles O36: the length is the outer test, the index the inner one. -/
theorem packetErrorsInOrder : Obligations.PacketErrorsInOrder := by
  intro g c s
  refine ⟨fun hc => ?_, fun hc hg => ?_⟩
  · rw [exec_of_wf rfl, replyTo, if_pos hc]; rfl
  · rw [exec_of_wf rfl, replyTo, if_neg hc.not_gt, if_pos hg]; rfl

/-- Settles O23: each operation's reply is an error in the cases that the statement lists. -/
theorem errorsComeFromTheirOperations : Obligations.ErrorsComeFromTheirOperations := by
  refine ⟨fun _ => rfl, fun _ => rfl, fun i s t e h hr => ?_⟩
  have hreply := reply_of_exec h hr
  cases i
  case frameEnc b =>
    rw [replyTo] at hreply
    split at hreply
    · cases hreply; exact .inl ⟨b, rfl, ‹_›, rfl, rfl⟩
    · cases hreply
  case encWfPacket g c =>
    rw [replyTo] at hreply
    split at hreply
    · cases hreply; exact .inr (.inl ⟨g, c, rfl, ‹_›, rfl, rfl⟩)
    · split at hreply
      · cases hreply; exact .inr (.inr (.inl ⟨g, c, rfl, ‹_›, rfl, rfl⟩))
      · cases hreply
  case frameVal f =>
    obtain ⟨hne, rfl⟩ := checksumError_eq_some.mp (checkedReply_eq_error.mp hreply.symm)
    exact .inr (.inr (.inr (.inl ⟨f, .inl rfl, hne, rfl, rfl⟩)))
  case hdrDec f =>
    obtain ⟨hne, rfl⟩ := checksumError_eq_some.mp (checkedReply_eq_error.mp hreply.symm)
    exact .inr (.inr (.inr (.inl ⟨f, .inr rfl, hne, rfl, rfl⟩)))
  case encWrPacket ops => cases hreply; exact .inr (.inr (.inr (.inr (.inl ⟨ops, rfl, rfl, rfl⟩))))
  case encRdFlash ops => cases hreply; exact .inr (.inr (.inr (.inr (.inr (.inl ⟨ops, rfl, rfl, rfl⟩)))))
  case encRdRam ops => cases hreply; exact .inr (.inr (.inr (.inr (.inr (.inr ⟨ops, rfl, rfl, rfl⟩)))))
  all_goals cases hreply

end Sys2Proof.Machine
end

