-- ==== Sys2Proof/Proofs/EngineSteps.lean ====
section
/-! The engine (10_state.md R20, 20_memory.md R49, R52, 70_reset_and_hazards.md R250 to R252): what one step does
with each event of the host, and what a run over a list of events does. -/

namespace Sys2Proof.Machine

variable {ν : Type}

/-- The replies that an event gives the host, from the parameters and `CRC`: one for an accepted request, none for a
reset. -/
def eventReplies (p : Params ν) (c : U16) : HostEvent → List (Reply ν)
  | .reset => []
  | .issue r =>
    match decode r with
    | .ok i => [replyTo i p c]
    | .reserved o => [.error (.unsupportedOpsel o)]
    | .illTyped _ => []

/-- The state after an accepted event: `CRC` and the replies as the event makes them, `rest` still waiting. -/
def afterEvent (s : State) (e : HostEvent) (rest : List HostEvent) : State :=
  { crc := crcEffect s.crc e, params := s.params, pending := rest
    returned := s.returned ++ eventReplies s.params s.crc e }

/-! ## One step -/

theorem step_of_wf {s : State} (h : paramsWf s.params = true) : step s = serveNext exec s := engineStep_of_wf h

/-- R252: ill-formed parameters are refused at every step. -/
theorem step_of_not_wf {s : State} (h : paramsWf s.params = false) : step s = .refused .illFormedInst :=
  engineStep_of_not_wf h

/-- R229. -/
theorem step_of_idle {s : State} (h : paramsWf s.params = true) (hp : s.pending = []) : step s = .next s := by
  rw [step_of_wf h, serveNext, hp]

/-- A step on a request serves it in the state with the request taken. -/
theorem step_of_issue {s : State} {r : Request} {rest : List HostEvent} (h : paramsWf s.params = true)
    (hp : s.pending = .issue r :: rest) : step s = serveRequest exec r { s with pending := rest } := by
  rw [step_of_wf h, serveNext_issue hp]

/-- R250: a reset clears `CRC` and takes the event. -/
theorem step_of_reset {s : State} {rest : List HostEvent} (h : paramsWf s.params = true)
    (hp : s.pending = .reset :: rest) : step s = .next { s with crc := 0x0000, pending := rest } := by
  rw [step_of_wf h, serveNext, hp]; rfl

theorem step_of_decode_ok {s : State} {r : Request} {rest : List HostEvent} {i : Instr} (h : paramsWf s.params = true)
    (hp : s.pending = .issue r :: rest) (hd : decode r = .ok i) : step s = exec i { s with pending := rest } := by
  rw [step_of_issue h hp, serveRequest, hd]

theorem step_of_decode_reserved {s : State} {r : Request} {rest : List HostEvent} {o : Byte}
    (h : paramsWf s.params = true) (hp : s.pending = .issue r :: rest) (hd : decode r = .reserved o) :
    step s = .next { s with pending := rest, returned := s.returned ++ [.error (.unsupportedOpsel o)] } := by
  rw [step_of_issue h hp, serveRequest, hd]; rfl

theorem step_of_decode_illTyped {s : State} {r : Request} {rest : List HostEvent} {o : Byte}
    (h : paramsWf s.params = true) (hp : s.pending = .issue r :: rest) (hd : decode r = .illTyped o) :
    step s = .refused (.illTypedRequest o) := by
  rw [step_of_issue h hp, serveRequest, hd]

/-- What an operation leaves in `CRC` is the effect of the event that issues it. -/
theorem crcEffect_of_decode_ok {r : Request} {i : Instr} (h : decode r = .ok i) (c : U16) :
    crcEffect c (.issue r) = crcLeftBy i c := by
  rw [crcEffect, h]; cases i <;> rfl

/-- An accepted event is served: the step completes, and only `CRC`, the queue and the replies change. -/
theorem step_of_accepted {s : State} {e : HostEvent} {rest : List HostEvent} (h : paramsWf s.params = true)
    (hp : s.pending = e :: rest) (ha : Accepted e) : step s = .next (afterEvent s e rest) := by
  match e with
  | .reset =>
    rw [step_of_reset h hp, afterEvent, eventReplies, List.append_nil]; rfl
  | .issue r =>
    match hd : decode r with
    | .ok i =>
      rw [step_of_decode_ok h hp hd, exec_of_wf (wf_and_encode_of_decode hd).1, afterEvent,
        crcEffect_of_decode_ok hd, eventReplies, hd]
      rfl
    | .reserved o =>
      rw [step_of_decode_reserved h hp hd, afterEvent, eventReplies, crcEffect, hd]
    | .illTyped o => exact absurd hd (ha o)

/-- What can stand at the head of the queue: nothing, an accepted event, or a request with other operands than its
selector's. -/
theorem pending_cases (s : State) :
    s.pending = [] ∨ (∃ e rest, s.pending = e :: rest ∧ Accepted e) ∨
      ∃ r rest o, s.pending = .issue r :: rest ∧ decode r = .illTyped o := by
  match hp : s.pending with
  | [] => exact .inl rfl
  | .reset :: rest => exact .inr (.inl ⟨_, _, rfl, trivial⟩)
  | .issue r :: rest =>
    by_cases hd : ∃ o, decode r = .illTyped o
    · obtain ⟨o, hd⟩ := hd
      exact .inr (.inr ⟨_, _, o, rfl, hd⟩)
    · exact .inr (.inl ⟨_, _, rfl, not_exists.mp hd⟩)

/-- A step that completes did nothing, or served an accepted event; the parameters are well-formed. -/
theorem step_eq_next {s t : State} (h : step s = .next t) :
    paramsWf s.params = true ∧
      (t = s ∨ ∃ e rest, s.pending = e :: rest ∧ Accepted e ∧ t = afterEvent s e rest) := by
  cases hwf : paramsWf s.params
  · rw [step_of_not_wf hwf] at h; cases h
  · refine ⟨rfl, ?_⟩
    obtain hp | ⟨e, rest, hp, ha⟩ | ⟨r, rest, o, hp, hd⟩ := pending_cases s
    · rw [step_of_idle hwf hp] at h; cases h
      exact .inl rfl
    · rw [step_of_accepted hwf hp ha] at h; cases h
      exact .inr ⟨e, rest, hp, ha, rfl⟩
    · rw [step_of_decode_illTyped hwf hp hd] at h; cases h

/-- Settles O9: a step does nothing or serves an accepted event, and the rest of the queue was accepted before. -/
theorem readyStateStepsToReadyState : Obligations.ReadyStateStepsToReadyState := by
  rintro s ⟨hwf, hacc⟩
  match hp : s.pending with
  | [] => exact ⟨s, step_of_idle hwf hp, hwf, hacc⟩
  | e :: rest =>
    rw [hp] at hacc
    obtain ⟨ha, hrest⟩ := List.forall_mem_cons.mp hacc
    exact ⟨_, step_of_accepted hwf hp ha, hwf, hrest⟩

/-- Settles O8: the parameters are ill-formed, or the next request is ill-typed; every other step completes. -/
theorem stepIsRefusedOnlyAtTheBoundary : Obligations.StepIsRefusedOnlyAtTheBoundary := by
  intro s x
  cases hwf : paramsWf s.params
  · simp [step_of_not_wf hwf, eq_comm]
  · obtain hp | ⟨e, rest, hp, ha⟩ | ⟨r, rest, o, hp, hd⟩ := pending_cases s
    · simp [step_of_idle hwf hp, hp]
    · suffices ∀ r o, e = .issue r → decode r ≠ .illTyped o by
        simp_all [step_of_accepted hwf hp ha]
      rintro r o rfl
      exact ha o
    · simp [step_of_decode_illTyped hwf hp hd, hp, hd, eq_comm]

/-- Settles O13: nothing that a step does writes the parameters. -/
theorem noStepChangesTheParameters : Obligations.NoStepChangesTheParameters := by
  intro s t h
  obtain ⟨-, rfl | ⟨e, rest, -, -, rfl⟩⟩ := step_eq_next h <;> rfl

/-- Settles O4: the decoder reports the selector, whatever the operands are. -/
theorem reservedSelectorReturnsUnsupported : Obligations.ReservedSelectorReturnsUnsupported :=
  fun _ _ _ _ hwf hp ho => step_of_decode_reserved hwf hp (decode_eq_reserved.mpr ⟨ho, rfl⟩)

/-- Settles O6: well-formed parameters keep the fields in the body and hold the fixed entries. -/
theorem brokenInstanceIsRefused : Obligations.BrokenInstanceIsRefused := by
  intro s hbroken
  refine step_of_not_wf (Bool.eq_false_iff.mpr fun hwf => ?_)
  obtain ⟨hmanuf, hold, hnew⟩ := paramsWf_fixed hwf
  obtain ⟨k, hk⟩ | h | h | h := hbroken
  · exact hk.not_ge (paramsWf_layout hwf k)
  · exact h hmanuf
  · exact h hold
  · exact h hnew

/-- Settles O1: by `step_of_reset`. -/
theorem resetClearsCrcOnly : Obligations.ResetClearsCrcOnly :=
  ⟨rfl, fun _ _ => step_of_reset⟩

/-- Settles O3: by `step_of_decode_ok`. -/
theorem stepRunsTheDecodedOperation : Obligations.StepRunsTheDecodedOperation :=
  fun _ _ _ _ => step_of_decode_ok

/-- Settles O5: by `step_of_idle`. -/
theorem idleStepChangesNothing : Obligations.IdleStepChangesNothing := fun _ => step_of_idle

/-- A frame request of another length is ill-typed. -/
theorem takeF_of_length_ne {o : Byte} {mk : Bytes → Instr} {f : Bytes} (h : f.length ≠ 72) :
    takeF o mk [.bytes f] = .illTyped o := if_neg (mt beq_iff_eq.mp h)

/-- Settles O7: the operation refuses the frame itself, and the decoder refuses its request. -/
theorem frameOperandOfOtherLengthIsRefused : Obligations.FrameOperandOfOtherLengthIsRefused := by
  intro s f rest hf
  refine ⟨exec_of_not_wf ?_ s, exec_of_not_wf ?_ s, fun hwf hp => ?_, fun hwf hp => ?_⟩
  · exact Bool.eq_false_iff.mpr (mt wf_frameVal.mp hf)
  · exact Bool.eq_false_iff.mpr (mt wf_hdrDec.mp hf)
  · exact step_of_decode_illTyped hwf hp (takeF_of_length_ne hf)
  · exact step_of_decode_illTyped hwf hp (takeF_of_length_ne hf)

/-- Settles O57: `exec` is `operate` at strings. -/
theorem stepIsTheBlockAtStrings : Obligations.StepIsTheBlockAtStrings := by
  intro s
  have hnm : (⟨"nintendo", "EA"⟩ : FixedNames Name) = Config.fixedNames := rfl
  rw [step, engineStep, blockStep, hnm, funext₂ exec_eq_operate]

/-! ## Runs -/

/-- What an event gives the host when it is served alone is what `eventReplies` says. -/
theorem repliesAlone_eq {p : Params Name} {e : HostEvent} (h : paramsWf p = true) (ha : Accepted e) (c : U16) :
    repliesAlone p c e = eventReplies p c e := by
  have hstep := step_of_accepted (s := { crc := c, params := p, pending := [e], returned := [] }) h rfl ha
  rw [repliesAlone, hstep]
  exact List.nil_append _

/-- The state after a list of accepted events, the first served first, with `rest` still waiting. -/
def afterEvents (s : State) (es rest : List HostEvent) : State :=
  { crc := es.foldl crcEffect s.crc, params := s.params, pending := rest
    returned := s.returned ++ repliesInOrder s.params s.crc es }

/-- A run goes on from the state that the first step answers. -/
theorem run_succ_of_step {M : Host.Core} {s t : M.State} (h : M.step s = .next t) (k : Nat) :
    M.run (k + 1) s = M.run k t := by
  rw [Host.Core.run, h]

/-- As many steps as there are accepted events at the head of the queue serve them in order (R52). -/
theorem run_of_accepted {es rest : List HostEvent} {s : State} (h : paramsWf s.params = true)
    (hp : s.pending = es ++ rest) (ha : ∀ e ∈ es, Accepted e) :
    core.run es.length s = .next (afterEvents s es rest) := by
  induction es generalizing s with
  | nil =>
    obtain ⟨c, p, q, rs⟩ := s
    obtain rfl : q = rest := hp
    simp [Host.Core.run, afterEvents, repliesInOrder]
  | cons e es ih =>
    obtain ⟨he, hes⟩ := List.forall_mem_cons.mp ha
    refine (run_succ_of_step (M := core) (step_of_accepted h hp he) es.length).trans ?_
    refine (ih (s := afterEvent s e (es ++ rest)) h rfl hes).trans ?_
    simp [afterEvents, afterEvent, repliesInOrder, repliesAlone_eq h he]

/-- An accepted event gives one reply if it is an operation and none if it is a reset. -/
theorem repliesAlone_length {p : Params Name} {e : HostEvent} (h : paramsWf p = true) (ha : Accepted e) (c : U16) :
    (repliesAlone p c e).length = if isIssue e then 1 else 0 := by
  rw [repliesAlone_eq h ha]
  match e with
  | .reset => rfl
  | .issue r =>
    rw [eventReplies]
    match hd : decode r with
    | .ok i => rfl
    | .reserved o => rfl
    | .illTyped o => exact absurd hd (ha o)

theorem repliesInOrder_length {p : Params Name} {es : List HostEvent} (h : paramsWf p = true)
    (ha : ∀ e ∈ es, Accepted e) (c : U16) : (repliesInOrder p c es).length = es.countP isIssue := by
  induction es generalizing c with
  | nil => rfl
  | cons e es ih =>
    obtain ⟨he, hes⟩ := List.forall_mem_cons.mp ha
    rw [repliesInOrder, List.length_append, repliesAlone_length h he, ih hes, List.countP_cons, add_comm]

/-- Settles O10: the run serves all that waits, and `repliesInOrder` holds one reply for each operation. -/
theorem everyIssuedOperationGetsOneReply : Obligations.EveryIssuedOperationGetsOneReply := by
  rintro s ⟨hwf, hacc⟩
  exact ⟨_, run_of_accepted hwf (List.append_nil _).symm hacc, rfl, rfl, rfl, repliesInOrder_length hwf hacc _⟩

/-- Settles O11: the run answers one state, whose `CRC` is the fold. -/
theorem crcIsTheFoldOfTheHostsEvents : Obligations.CrcIsTheFoldOfTheHostsEvents := by
  rintro s t ⟨hwf, hacc⟩ h
  rw [run_of_accepted hwf (List.append_nil _).symm hacc] at h
  cases h; rfl

end Sys2Proof.Machine
end

