-- ==== Sys2Proof/Proofs/CrcArithmetic.lean ====
section
/-! The algebra of the CRC (41_crc16_xmodem.md R130 to R132, R138): one shift and the byte step on numbers, their
linearity and injectivity over GF(2), the table form, and the remainder by the generator. -/

namespace Sys2Proof.Machine

/-! ## One shift -/

theorem crcShift_of_lt {c : U16} (h : c.toNat < 2 ^ 15) : crcShift c = c <<< 1 := by
  have hbit : ¬ c.getLsbD 15 = true := by rw [BitVec.getLsbD, Nat.testBit_lt_two_pow h]; decide
  exact if_neg hbit

theorem crcShift_of_ge {c : U16} (h : 2 ^ 15 ≤ c.toNat) : crcShift c = c <<< 1 ^^^ 0x1021#16 := by
  have hlt := c.isLt
  have hbit : c.getLsbD 15 = true := by
    rw [BitVec.getLsbD, Nat.testBit_eq_decide_div_mod_eq, decide_eq_true_eq]
    omega
  exact if_pos hbit

theorem shiftLeft_one_toNat (c : U16) : (c <<< 1).toNat = 2 * c.toNat % 2 ^ 16 := by
  rw [BitVec.toNat_shiftLeft, Nat.shiftLeft_eq, mul_comm, pow_one]

/-- The shift is the round of R131's loop on numbers. -/
theorem crcShift_toNat (c : U16) : (crcShift c).toNat = specRound c.toNat := by
  have hlt := c.isLt
  have hmask : ∀ n, n &&& 0xFFFF = n % 2 ^ 16 := fun n => Nat.and_two_pow_sub_one_eq_mod n 16
  rw [specRound, hmask, hmask, Nat.xor_mod_two_pow]
  rcases Nat.lt_or_ge c.toNat (2 ^ 15) with h | h
  · rw [crcShift_of_lt h, if_neg (by omega), BitVec.toNat_shiftLeft]
  · rw [crcShift_of_ge h, if_pos (by omega), BitVec.toNat_xor, BitVec.toNat_shiftLeft]; rfl

/-- Only 0x0000 is shifted to 0x0000: the generator is odd. -/
theorem crcShift_eq_zero {c : U16} (h : crcShift c = 0#16) : c = 0#16 := by
  have hlt := c.isLt
  apply BitVec.eq_of_toNat_eq
  rcases Nat.lt_or_ge c.toNat (2 ^ 15) with hc | hc
  · rw [crcShift_of_lt hc] at h
    have hzero := (shiftLeft_one_toNat c).symm.trans (congrArg BitVec.toNat h)
    rw [BitVec.toNat_ofNat] at hzero ⊢
    omega
  · rw [crcShift_of_ge hc] at h
    have hodd := (shiftLeft_one_toNat c).symm.trans (congrArg BitVec.toNat (BitVec.xor_eq_zero_iff.mp h))
    rw [BitVec.toNat_ofNat] at hodd ⊢
    omega

theorem crcShift_injective : Function.Injective crcShift := by
  intro a b h
  rw [← BitVec.xor_eq_zero_iff]
  apply crcShift_eq_zero
  rw [crcShift_xor, h, BitVec.xor_self]

/-! ## Several shifts -/

theorem repeat_crcShift_xor (n : Nat) (a b : U16) :
    Nat.repeat crcShift n (a ^^^ b) = Nat.repeat crcShift n a ^^^ Nat.repeat crcShift n b := by
  induction n with
  | zero => rfl
  | succ n ih => simp only [Nat.repeat, ih, crcShift_xor]

theorem repeat_crcShift_injective (n : Nat) : Function.Injective (Nat.repeat crcShift n) := by
  induction n with
  | zero => exact fun _ _ h => h
  | succ n ih => exact crcShift_injective.comp ih

theorem repeat_crcShift_toNat (n : Nat) (c : U16) :
    (Nat.repeat crcShift n c).toNat = Nat.repeat specRound n c.toNat := by
  induction n with
  | zero => rfl
  | succ n ih => simp only [Nat.repeat, crcShift_toNat, ih]

/-- While no 1 is shifted out, nothing is subtracted. -/
theorem repeat_crcShift_of_lt {n : Nat} {c : U16} (h : c.toNat * 2 ^ n < 2 ^ 16) :
    Nat.repeat crcShift n c = c <<< n := by
  induction n with
  | zero => simp [Nat.repeat]
  | succ n ih =>
    rw [pow_succ, ← mul_assoc] at h
    have hlt : (c <<< n).toNat < 2 ^ 15 := by
      rw [BitVec.toNat_shiftLeft, Nat.shiftLeft_eq, Nat.mod_eq_of_lt (by omega)]
      omega
    rw [Nat.repeat, ih (by omega), crcShift_of_lt hlt, BitVec.shiftLeft_add]

/-! ## The byte step -/

/-- The byte step is linear over GF(2) (R138). -/
theorem crcStep_xor (c d : U16) (a b : Byte) : crcStep (c ^^^ d) (a ^^^ b) = crcStep c a ^^^ crcStep d b := by
  simp only [crcStep, ← repeat_crcShift_xor, BitVec.setWidth_xor, BitVec.shiftLeft_xor_distrib]
  congr 1
  ac_rfl

theorem crcStep_zero : crcStep 0x0000 0x00 = 0x0000 := by decide

/-- The number that a byte enters as. -/
theorem setWidth_shiftLeft_toNat (b : Byte) : (b.setWidth 16 <<< 8).toNat = b.toNat <<< 8 := by
  have hlt : b.toNat <<< 8 < 2 ^ 16 := by rw [Nat.shiftLeft_eq]; omega
  rw [BitVec.toNat_shiftLeft, BitVec.toNat_setWidth_of_le (by decide), Nat.mod_eq_of_lt hlt]

theorem crcStep_toNat (c : U16) (b : Byte) : (crcStep c b).toNat = specCrcStep c.toNat b.toNat := by
  rw [crcStep, repeat_crcShift_toNat, specCrcStep, BitVec.toNat_xor, setWidth_shiftLeft_toNat]

/-- Different values before a byte are different after it. -/
theorem crcStep_left_injective {c d : U16} {b : Byte} (h : crcStep c b = crcStep d b) : c = d :=
  (BitVec.xor_left_inj _).mp (repeat_crcShift_injective 8 h)

/-- Different bytes leave different values. -/
theorem crcStep_right_injective {c : U16} {a b : Byte} (h : crcStep c a = crcStep c b) : a = b := by
  have hshift : a.setWidth 16 <<< 8 = b.setWidth 16 <<< 8 :=
    (BitVec.xor_right_inj _).mp (repeat_crcShift_injective 8 h)
  have hnat := congrArg BitVec.toNat hshift
  rw [setWidth_shiftLeft_toNat, setWidth_shiftLeft_toNat, Nat.shiftLeft_eq, Nat.shiftLeft_eq] at hnat
  exact BitVec.eq_of_toNat_eq (by omega)

/-- Settles O25: by `crcStep_toNat`. -/
theorem crcFeedIsTheByteStep : Obligations.CrcFeedIsTheByteStep :=
  fun b s => ⟨rfl, _, exec_of_wf rfl s, crcStep_toNat s.crc b⟩

/-! ## The two halves of `CRC` -/

/-- `CRC` is its high byte, moved to bits 15..8, and its low byte. -/
theorem xor_high_byte (c : U16) :
    c ^^^ ((c.extractLsb' 8 8).setWidth 16 <<< 8) = (c.extractLsb' 0 8).setWidth 16 := by
  ext i hi
  rcases Nat.lt_or_ge i 8 with h | h
  · simp [h, hi, ← BitVec.getLsbD_eq_getElem]
  · simp [h, hi, Nat.not_lt.mpr h, ← BitVec.getLsbD_eq_getElem, show i - 8 < 8 by omega, show i - 8 < 16 by omega]

/-- The low byte is only moved up by a byte step. -/
theorem repeat_crcShift_low_byte (b : Byte) : Nat.repeat crcShift 8 (b.setWidth 16) = b.setWidth 16 <<< 8 := by
  apply repeat_crcShift_of_lt
  rw [BitVec.toNat_setWidth_of_le (by decide)]
  omega

/-- Feeding the high byte of `CRC` cancels it. -/
theorem crcStep_high_byte (c : U16) :
    crcStep c (c.extractLsb' 8 8) = (c.extractLsb' 0 8).setWidth 16 <<< 8 := by
  rw [crcStep, xor_high_byte, repeat_crcShift_low_byte]

/-- Feeding `CRC`, high byte first, leaves 0x0000 (R138 (d)). -/
theorem foldl_crcStep_be16Bytes (c : U16) : (be16Bytes c).foldl crcStep c = 0x0000 := by
  rw [be16Bytes, List.foldl_cons, List.foldl_cons, List.foldl_nil, crcStep_high_byte, crcStep, BitVec.xor_self]
  decide

/-! ## The table form -/

/-- The 256 entries of 95_test_vectors.md are the byte steps from 0x0000 (R138 (e)). -/
theorem specCrcTable_eq : specCrcTable = (List.range 256).map fun n => crcStep 0x0000 (BitVec.ofNat 8 n) := by
  decide +kernel

theorem specCrcTable_getD (b : Byte) : specCrcTable.getD b.toNat 0 = crcStep 0x0000 b := by
  simp [specCrcTable_eq, b.isLt]

/-- The byte step by its table: the low byte of `CRC` moves up, the high byte and the fed byte select the entry. -/
theorem crcStep_eq_table (c : U16) (b : Byte) :
    crcStep c b = c <<< 8 ^^^ specCrcTable.getD (c.toNat / 256 ^^^ b.toNat) 0 := by
  have hidx : c.toNat / 256 ^^^ b.toNat = (c.extractLsb' 8 8 ^^^ b).toNat := by
    rw [BitVec.toNat_xor, BitVec.extractLsb'_toNat, Nat.shiftRight_eq_div_pow, Nat.mod_eq_of_lt (by omega)]
  have hlow : (c.extractLsb' 0 8).setWidth 16 <<< 8 = c <<< 8 := by
    ext i hi
    rcases Nat.lt_or_ge i 8 with h | h
    · simp [h]
    · simp [hi, Nat.not_lt.mpr h, ← BitVec.getLsbD_eq_getElem, show i - 8 < 8 by omega, show i - 8 < 16 by omega]
  have hsum : crcStep c b = crcStep (c ^^^ 0x0000) (c.extractLsb' 8 8 ^^^ (c.extractLsb' 8 8 ^^^ b)) := by
    rw [← BitVec.xor_assoc, BitVec.xor_self, BitVec.zero_xor]
    exact congrArg (crcStep · b) BitVec.xor_zero.symm
  rw [hidx, specCrcTable_getD, hsum, crcStep_xor, crcStep_high_byte, hlow]

/-- Settles O26: by `crcStep_eq_table`. -/
theorem crcFeedFollowsTheTable : Obligations.CrcFeedFollowsTheTable := by
  intro b s
  rw [exec_of_wf rfl, crcLeftBy, crcStep_eq_table]; rfl

/-! ## Sequences -/

theorem foldl_crcStep_zeros (n : Nat) : (List.replicate n 0x00).foldl crcStep 0x0000 = 0x0000 := by
  induction n with
  | zero => rfl
  | succ n ih => rw [List.replicate_succ, List.foldl_cons, crcStep_zero, ih]

theorem foldl_crcStep_injective {s : Bytes} {c d : U16} (h : s.foldl crcStep c = s.foldl crcStep d) : c = d := by
  induction s generalizing c d with
  | nil => exact h
  | cons b s ih => exact crcStep_left_injective (ih h)

theorem foldl_crcStep_xor {a b : Bytes} (h : a.length = b.length) (c d : U16) :
    (List.zipWith (· ^^^ ·) a b).foldl crcStep (c ^^^ d) = a.foldl crcStep c ^^^ b.foldl crcStep d := by
  induction a generalizing b c d with
  | nil => obtain rfl := List.eq_nil_of_length_eq_zero h.symm; rfl
  | cons x a ih =>
    match b with
    | y :: b =>
      rw [List.zipWith_cons_cons, List.foldl_cons, crcStep_xor, ih (Nat.succ.inj h)]
      rfl

/-- A sequence followed by its CRC, high byte first, has CRC 0x0000 (R138 (d)). -/
theorem crc16x_append_self (s : Bytes) : crc16x (s ++ be16Bytes (crc16x s)) = 0x0000 := by
  rw [crc16x_append, foldl_crcStep_be16Bytes]

/-- Changing one byte of a sequence changes its CRC. -/
theorem crc16x_ne_of_byte_ne (s t : Bytes) {a b : Byte} (h : a ≠ b) : crc16x (s ++ a :: t) ≠ crc16x (s ++ b :: t) := by
  rw [crc16x_append, crc16x_append]
  exact fun he => h (crcStep_right_injective (foldl_crcStep_injective he))

/-- Settles O30: the zeros leave `CRC` at its initial value 0x0000. -/
theorem leadingZerosDoNotCount : Obligations.LeadingZerosDoNotCount := by
  intro n s
  have hzeros : crc16x (List.replicate n 0x00) = 0x0000 := foldl_crcStep_zeros n
  exact ⟨by rw [crc16x_append, hzeros]; rfl, hzeros⟩

/-- Settles O31: the initial value 0x0000 is the sum of itself with itself. -/
theorem crcIsLinear : Obligations.CrcIsLinear :=
  fun _ _ h => foldl_crcStep_xor h 0x0000 0x0000

/-! ## The remainder by the generator (R130) -/

/-- A multiple of the generator over GF(2). -/
def GeneratorMultiple (n : Nat) : Prop := ∃ ks, n = generatorSum ks

theorem generatorSum_append (ks : List Nat) (k : Nat) : generatorSum (ks ++ [k]) = generatorSum ks ^^^ 0x11021 <<< k := by
  simp [generatorSum]

theorem GeneratorMultiple.zero : GeneratorMultiple 0 := ⟨[], rfl⟩

theorem GeneratorMultiple.xor_shift {n : Nat} (h : GeneratorMultiple n) (k : Nat) :
    GeneratorMultiple (n ^^^ 0x11021 <<< k) := by
  obtain ⟨ks, rfl⟩ := h
  exact ⟨ks ++ [k], (generatorSum_append ks k).symm⟩

theorem GeneratorMultiple.xor {m n : Nat} (hm : GeneratorMultiple m) (hn : GeneratorMultiple n) :
    GeneratorMultiple (m ^^^ n) := by
  obtain ⟨ks, rfl⟩ := hn
  induction ks using List.reverseRecOn with
  | nil => simpa [generatorSum] using hm
  | append_singleton ks k ih =>
    rw [generatorSum_append, ← Nat.xor_assoc]
    exact GeneratorMultiple.xor_shift ih k

theorem GeneratorMultiple.shiftLeft {n : Nat} (h : GeneratorMultiple n) (j : Nat) : GeneratorMultiple (n <<< j) := by
  obtain ⟨ks, rfl⟩ := h
  induction ks using List.reverseRecOn with
  | nil => simpa [generatorSum] using GeneratorMultiple.zero
  | append_singleton ks k ih =>
    rw [generatorSum_append, Nat.shiftLeft_xor_distrib, ← Nat.shiftLeft_add]
    exact GeneratorMultiple.xor_shift ih (k + j)

/-- A number moved up by i bits with a number of i bits below it: no bits overlap, so the xor is the sum. -/
theorem shiftLeft_xor_of_lt {b i : Nat} (h : b < 2 ^ i) (a : Nat) : a <<< i ^^^ b = 2 ^ i * a + b := by
  have hdiv : (a <<< i ^^^ b) / 2 ^ i = a := by
    rw [Nat.xor_div_two_pow, Nat.div_eq_of_lt h, Nat.xor_zero, Nat.shiftLeft_eq,
      Nat.mul_div_cancel _ (Nat.two_pow_pos i)]
  have hmod : (a <<< i ^^^ b) % 2 ^ i = b := by
    rw [Nat.xor_mod_two_pow, Nat.shiftLeft_eq, Nat.mul_mod_left, Nat.mod_eq_of_lt h, Nat.zero_xor]
  rw [← Nat.div_add_mod (a <<< i ^^^ b) (2 ^ i), hdiv, hmod]

/-- A shift differs from multiplication by x by a multiple of the generator. -/
theorem generatorMultiple_crcShift (c : U16) : GeneratorMultiple (c.toNat <<< 1 ^^^ (crcShift c).toNat) := by
  have hlt := c.isLt
  rcases Nat.lt_or_ge c.toNat (2 ^ 15) with h | h
  · rw [crcShift_of_lt h, shiftLeft_one_toNat, Nat.shiftLeft_eq, Nat.mod_eq_of_lt (by omega), mul_comm, pow_one,
      Nat.xor_self]
    exact GeneratorMultiple.zero
  · refine ⟨[0], ?_⟩
    have hcarry : c.toNat <<< 1 = 1 <<< 16 ^^^ (c <<< 1).toNat := by
      rw [shiftLeft_xor_of_lt (c <<< 1).isLt, shiftLeft_one_toNat, Nat.shiftLeft_eq]
      omega
    rw [crcShift_of_ge h, BitVec.toNat_xor, hcarry, Nat.xor_assoc, Nat.xor_xor_cancel_left]
    rfl

theorem generatorMultiple_repeat_crcShift (n : Nat) (c : U16) :
    GeneratorMultiple (c.toNat <<< n ^^^ (Nat.repeat crcShift n c).toNat) := by
  induction n with
  | zero => simpa [Nat.repeat] using GeneratorMultiple.zero
  | succ n ih =>
    have hsum := (ih.shiftLeft 1).xor (generatorMultiple_crcShift (Nat.repeat crcShift n c))
    rwa [Nat.shiftLeft_xor_distrib, ← Nat.shiftLeft_add, Nat.xor_assoc, Nat.xor_xor_cancel_left] at hsum

theorem bytesNat_append (s : Bytes) (b : Byte) : bytesNat (s ++ [b]) = bytesNat s <<< 8 ^^^ b.toNat := by
  rw [bytesNat, List.foldl_append, shiftLeft_xor_of_lt b.isLt, mul_comm]; rfl

/-- Settles O29: with each byte, the message and `CRC` are both multiplied by x^8 up to multiples of the generator. -/
theorem crcIsTheRemainderByTheGenerator : Obligations.CrcIsTheRemainderByTheGenerator := by
  intro s
  induction s using List.reverseRecOn with
  | nil => exact ⟨[], rfl⟩
  | append_singleton s b ih =>
    have hstep := generatorMultiple_repeat_crcShift 8 (crc16x s ^^^ (b.setWidth 16 <<< 8))
    have hsum := (GeneratorMultiple.shiftLeft ih 8).xor hstep
    rw [BitVec.toNat_xor, setWidth_shiftLeft_toNat, Nat.shiftLeft_xor_distrib, Nat.shiftLeft_xor_distrib,
      Nat.xor_assoc, Nat.xor_assoc, Nat.xor_xor_cancel_left, ← Nat.shiftLeft_add, ← Nat.shiftLeft_add] at hsum
    rw [crc16x_append, bytesNat_append, Nat.shiftLeft_xor_distrib, ← Nat.shiftLeft_add, Nat.xor_assoc]
    exact hsum

end Sys2Proof.Machine
end

