-- ==== Sys2Proof/Proofs/CrcRuns.lean ====
section
/-! `CRC` along sequences of operations (41_crc16_xmodem.md R137) and along CRC.SPAN's expansion (30_encoding.md
R75). -/

namespace Sys2Proof.Machine

/-! ## Sequences of operations -/

theorem execAll_cons_of_exec {i : Instr} {is : List Instr} {s t : State} (h : exec i s = .next t) :
    execAll (i :: is) s = execAll is t := by
  rw [execAll, h]

/-- Well-formed operations run to the end; `CRC` is what they make of it one after another. -/
theorem execAll_of_wf {is : List Instr} (h : ∀ i ∈ is, i.wf = true) (s : State) :
    ∃ t, execAll is s = .next t ∧ t.crc = is.foldl (fun c i => crcLeftBy i c) s.crc ∧ t.params = s.params := by
  induction is generalizing s with
  | nil => exact ⟨s, rfl, rfl, rfl⟩
  | cons i is ih =>
    obtain ⟨hi, his⟩ := List.forall_mem_cons.mp h
    obtain ⟨t, hrun, hcrc, hparams⟩ := ih his (giveReply (replyTo i s.params s.crc) (setCrc (crcLeftBy i s.crc) s))
    exact ⟨t, (execAll_cons_of_exec (exec_of_wf hi s)).trans hrun, hcrc, hparams⟩

/-- Without CRC.INIT, what the operations make of `CRC` is what the fed bytes make of it. -/
theorem foldl_crcLeftBy {is : List Instr} (h : ∀ i ∈ is, i ≠ .crcInit) (c : U16) :
    is.foldl (fun c i => crcLeftBy i c) c = (fedBytes is).foldl crcStep c := by
  induction is generalizing c with
  | nil => rfl
  | cons i is ih =>
    obtain ⟨hi, his⟩ := List.forall_mem_cons.mp h
    rw [List.foldl_cons, ih his]
    cases i
    case crcInit => exact absurd rfl hi
    all_goals rfl

/-- Settles O27: CRC.INIT starts the fold at `crc16x`'s initial value. -/
theorem fedCrcAgreesWithSpanCrc : Obligations.FedCrcAgreesWithSpanCrc := by
  intro is s h
  obtain ⟨t, hrun, hcrc, hparams⟩ :=
    execAll_of_wf (is := .crcInit :: is) (List.forall_mem_cons.mpr ⟨rfl, fun i hi => (h i hi).1⟩) s
  refine ⟨t, hrun, ?_, hparams⟩
  rw [hcrc, List.foldl_cons, foldl_crcLeftBy fun i hi => (h i hi).2]
  rfl

/-! ## Requests that the encoder writes -/

theorem accepted_encode {i : Instr} (h : i.wf = true) : Accepted (.issue (encode i)) := by
  intro o
  rw [decode_encode h]
  exact Decoded.noConfusion

theorem crcEffect_encode {i : Instr} (h : i.wf = true) (c : U16) : crcEffect c (.issue (encode i)) = crcLeftBy i c :=
  crcEffect_of_decode_ok (decode_encode h) c

theorem repliesAlone_encode {p : Params Name} {i : Instr} (hp : paramsWf p = true) (h : i.wf = true) (c : U16) :
    repliesAlone p c (.issue (encode i)) = [replyTo i p c] := by
  rw [repliesAlone_eq hp (accepted_encode h), eventReplies, decode_encode h]

/-! ## CRC.SPAN -/

/-- The events of the CRC.FEED operations of a sequence. -/
def feedEvents (b : Bytes) : List HostEvent := b.map fun x => .issue (encode (.crcFeed x))

theorem crcSpan_wf {b : Bytes} {i : Instr} (h : i ∈ crcSpan b) : i.wf = true := by
  simp only [crcSpan, List.mem_append, List.mem_cons, List.mem_map, List.not_mem_nil, or_false] at h
  obtain (rfl | ⟨x, -, rfl⟩) | rfl := h <;> rfl

theorem crcSpan_events (b : Bytes) :
    (crcSpan b).map (fun i => HostEvent.issue (encode i)) =
      .issue (encode .crcInit) :: (feedEvents b ++ [.issue (encode .crcRead)]) := by
  simp [crcSpan, feedEvents]

theorem foldl_crcEffect_feedEvents (b : Bytes) (c : U16) : (feedEvents b).foldl crcEffect c = b.foldl crcStep c := by
  rw [feedEvents, List.foldl_map]; rfl

theorem repliesInOrder_feedEvents {p : Params Name} (hp : paramsWf p = true) (b : Bytes) (c : U16)
    (es : List HostEvent) :
    repliesInOrder p c (feedEvents b ++ es) =
      List.replicate b.length (.ok .none) ++ repliesInOrder p (b.foldl crcStep c) es := by
  induction b generalizing c with
  | nil => rfl
  | cons x b ih =>
    have hfeed := repliesAlone_encode hp (i := .crcFeed x) rfl c
    have hcrc := crcEffect_encode (i := .crcFeed x) rfl c
    rw [feedEvents, List.map_cons, List.cons_append, repliesInOrder, hfeed, hcrc]
    exact congrArg (List.cons _) (ih (crcStep c x))

/-- Settles O28: the expansion is accepted, so the run serves it; its fold and its replies are those of the bytes. -/
theorem crcSpanReturnsTheSpanCrc : Obligations.CrcSpanReturnsTheSpanCrc := by
  intro b s rest hwf hp
  have hacc : ∀ e ∈ (crcSpan b).map fun i => HostEvent.issue (encode i), Accepted e :=
    List.forall_mem_map.mpr fun i hi => accepted_encode (crcSpan_wf hi)
  have hrun := run_of_accepted hwf hp hacc
  have hlen : ((crcSpan b).map fun i => HostEvent.issue (encode i)).length = b.length + 2 := by simp [crcSpan]
  have hcrc : ((crcSpan b).map fun i => HostEvent.issue (encode i)).foldl crcEffect s.crc = crc16x b := by
    rw [crcSpan_events, List.foldl_cons, List.foldl_append, foldl_crcEffect_feedEvents]; rfl
  have hreplies : repliesInOrder s.params s.crc ((crcSpan b).map fun i => HostEvent.issue (encode i)) =
      List.replicate (b.length + 1) (.ok .none) ++ [.ok (.word (crc16x b))] := by
    rw [crcSpan_events, repliesInOrder, repliesAlone_encode hwf rfl, crcEffect_encode rfl,
      repliesInOrder_feedEvents hwf, repliesInOrder, repliesAlone_encode hwf rfl]
    rfl
  rw [hlen] at hrun
  rw [hrun, afterEvents, hcrc, hreplies, List.append_assoc]

end Sys2Proof.Machine
end

