-- ==== Sys2Proof/Proofs/SealedFrames.lean ====
section
/-! Sealed frames (30_encoding.md R60, R61; 42_frame_codec.md R150, R161 to R163): big-endian pairs as numbers, what
sealing gives, which operations return frames, and what the validator and the decoder answer for a frame that is
sealed, not sealed, or damaged. -/

namespace Sys2Proof.Machine

/-! ## Byte order -/

theorem be16_toNat (a b : Byte) : (be16 a b).toNat = 256 * a.toNat + b.toNat := by
  have hb : (b.setWidth 16).toNat = b.toNat := BitVec.toNat_setWidth_of_le (by decide)
  rw [be16, BitVec.toNat_or, setWidth_shiftLeft_toNat, hb, Nat.shiftLeft_eq, mul_comm,
    ← Nat.two_pow_add_eq_or_of_lt b.isLt]

theorem be16Bytes_toNat (v : U16) : 256 * (v.extractLsb' 8 8).toNat + (v.extractLsb' 0 8).toNat = v.toNat := by
  rw [← be16_toNat, be16_extract]

theorem be16Bytes_be16 (a b : Byte) : be16Bytes (be16 a b) = [a, b] := by
  have h := be16Bytes_toNat (be16 a b)
  rw [be16_toNat] at h
  have hhi : (be16 a b).extractLsb' 8 8 = a := BitVec.eq_of_toNat_eq (by omega)
  have hlo : (be16 a b).extractLsb' 0 8 = b := BitVec.eq_of_toNat_eq (by omega)
  rw [be16Bytes, hhi, hlo]

/-! ## What a sealed frame is -/

/-- The checksum test passes exactly on the sealed frames. -/
theorem sealed_iff {f : Bytes} : Sealed f ↔ f.length = 72 ∧ checksumError f = none :=
  and_congr_right fun _ => checksumError_eq_none.symm

/-- The checksum of a sealed frame, as the number in its last two bytes. -/
theorem sealed_iff_toNat {f : Bytes} :
    Sealed f ↔ f.length = 72 ∧ (crc16x (f.take 70)).toNat = 256 * (f.getD 70 0).toNat + (f.getD 71 0).toNat := by
  rw [← be16_toNat, BitVec.toNat_inj, Sealed]

/-- A frame that is not sealed fails the checksum test, with the computed and the stored checksum. -/
theorem checksumError_of_not_sealed {f : Bytes} (h : f.length = 72) (hs : ¬ Sealed f) :
    crc16x (f.take 70) ≠ be16 (f.getD 70 0) (f.getD 71 0) ∧
      checksumError f = some (.checksumMismatch (crc16x (f.take 70)) (be16 (f.getD 70 0) (f.getD 71 0))) := by
  have hne : crc16x (f.take 70) ≠ be16 (f.getD 70 0) (f.getD 71 0) := fun he => hs ⟨h, he⟩
  exact ⟨hne, checksumError_eq_some.mpr ⟨hne, rfl⟩⟩

theorem sealed_sealBody {body : Bytes} (h : body.length = 70) : Sealed (sealBody body) :=
  sealed_iff.mpr ⟨by rw [sealBody_length, h], checksumError_sealBody h⟩

theorem take_sealBody {body : Bytes} (h : body.length = 70) : (sealBody body).take 70 = body := bodyOf_sealBody h

theorem sealed_commandFrame {b : Bytes} (h : b.length ≤ 70) : Sealed (commandFrame b) :=
  sealed_sealBody (padTo_length h)

theorem packetBody_length {c : Bytes} (h : c.length ≤ 64) (g : Nat) : (packetBody g c).length = 70 := by
  have hpad : (padTo Config.chunkLen c).length = 64 := padTo_length h
  rw [packetBody, List.length_append, hpad]; rfl

/-- A sealed frame is its body, sealed. -/
theorem sealBody_take_of_sealed {f : Bytes} (h : Sealed f) : sealBody (f.take 70) = f := by
  obtain ⟨hlen, hcrc⟩ := h
  have hlast : be16Bytes (crc16x (f.take 70)) = f.drop 70 := by
    rw [hcrc, be16Bytes_be16]
    apply List.ext_getElem
    · simp [hlen]
    · intro i hi _
      match i with
      | 0 | 1 => simp [hlen]
  rw [sealBody, hlast, List.take_append_drop]

/-- R138 (d). -/
theorem crc16x_of_sealed {f : Bytes} (h : Sealed f) : crc16x f = 0x0000 := by
  rw [← sealBody_take_of_sealed h]
  exact crc16x_append_self _

/-! ## The operations that return frames -/

variable {ν : Type}

theorem replyTo_encWfPacket_eq_frame {g : Nat} {c f : Bytes} {p : Params ν} {v : U16} :
    replyTo (.encWfPacket g c) p v = .ok (.frame f) ↔
      c.length ≤ 64 ∧ g < 2 ^ 24 ∧ sealBody (packetBody g c) = f := by
  rw [replyTo]
  by_cases hc : c.length > 64
  · rw [if_pos hc]
    exact ⟨nofun, fun h => absurd h.1 hc.not_ge⟩
  · rw [if_neg hc]
    by_cases hg : g ≥ 2 ^ 24
    · rw [if_pos hg]
      exact ⟨nofun, fun h => absurd h.2.1 hg.not_gt⟩
    · rw [if_neg hg, Reply.ok.injEq, Result.frame.injEq]
      exact ⟨fun h => ⟨Nat.not_lt.mp hc, Nat.not_le.mp hg, h⟩, fun h => h.2.2⟩

/-- Every frame that an operation returns is sealed (R61, R163). -/
theorem sealed_of_replyTo {i : Instr} {p : Params ν} {v : U16} {f : Bytes} (hwf : i.wf = true)
    (h : replyTo i p v = .ok (.frame f)) : Sealed f := by
  cases i
  case frameEnc b =>
    rw [replyTo] at h
    split at h
    · cases h
    · cases h; exact sealed_commandFrame (by omega)
  case encInfo | encStatus | encEraseFlash | encEraseRam | encWfBegin =>
    cases h; exact sealed_commandFrame (by decide)
  case encWfPacket g c =>
    obtain ⟨hc, -, rfl⟩ := replyTo_encWfPacket_eq_frame.mp h
    exact sealed_sealBody (packetBody_length hc g)
  case frameVal f' =>
    obtain ⟨hnone, hf⟩ := checkedReply_eq_ok.mp h
    cases hf
    exact sealed_iff.mpr ⟨wf_frameVal.mp hwf, hnone⟩
  case hdrDec f' =>
    obtain ⟨-, hf⟩ := checkedReply_eq_ok.mp h
    cases hf
  all_goals cases h

/-- An operation that returned a frame is well-formed, and the frame is its reply. -/
theorem frame_of_exec {i : Instr} {s : State} {f : Bytes}
    (h : exec i s = .next { s with returned := s.returned ++ [.ok (.frame f)] }) :
    i.wf = true ∧ replyTo i s.params s.crc = .ok (.frame f) :=
  ⟨(exec_eq_next.mp h).1, (reply_of_exec h rfl).symm⟩

theorem sealed_of_exec {i : Instr} {s : State} {f : Bytes}
    (h : exec i s = .next { s with returned := s.returned ++ [.ok (.frame f)] }) : Sealed f := by
  obtain ⟨hwf, hreply⟩ := frame_of_exec h
  exact sealed_of_replyTo hwf hreply

/-! ## The validator and the decoder -/

theorem exec_frameVal_of_sealed {f : Bytes} (h : Sealed f) (s : State) :
    exec (.frameVal f) s = .next { s with returned := s.returned ++ [.ok (.frame f)] } := by
  obtain ⟨hlen, hnone⟩ := sealed_iff.mp h
  rw [exec_of_wf (wf_frameVal.mpr hlen), replyTo, checkedReply_of_none hnone]; rfl

theorem exec_hdrDec_of_sealed {f : Bytes} (h : Sealed f) (s : State) :
    exec (.hdrDec f) s = .next { s with returned := s.returned ++ [.ok (.header (decodeHeader s.params f))] } := by
  obtain ⟨hlen, hnone⟩ := sealed_iff.mp h
  rw [exec_of_wf (wf_hdrDec.mpr hlen), replyTo, checkedReply_of_none hnone]; rfl

theorem exec_frameVal_of_error {f : Bytes} {e : Error} (hlen : f.length = 72) (h : checksumError f = some e)
    (s : State) : exec (.frameVal f) s = .next { s with returned := s.returned ++ [.error e] } := by
  rw [exec_of_wf (wf_frameVal.mpr hlen), replyTo, checkedReply_of_some h]; rfl

theorem exec_hdrDec_of_error {f : Bytes} {e : Error} (hlen : f.length = 72) (h : checksumError f = some e)
    (s : State) : exec (.hdrDec f) s = .next { s with returned := s.returned ++ [.error e] } := by
  rw [exec_of_wf (wf_hdrDec.mpr hlen), replyTo, checkedReply_of_some h]; rfl

/-! ## The invariant -/

theorem replySealed_replyTo {i : Instr} (h : i.wf = true) (p : Params Name) (v : U16) :
    ReplySealed (replyTo i p v) := by
  unfold ReplySealed
  split
  · next f hf => exact sealed_of_replyTo h hf
  · trivial

theorem replySealed_eventReplies (p : Params Name) (v : U16) (e : HostEvent) :
    ∀ r ∈ eventReplies p v e, ReplySealed r := by
  match e with
  | .reset => exact List.forall_mem_nil _
  | .issue r =>
    rw [eventReplies]
    match hd : decode r with
    | .ok i => exact List.forall_mem_singleton.mpr (replySealed_replyTo (wf_and_encode_of_decode hd).1 p v)
    | .reserved o => exact List.forall_mem_singleton.mpr trivial
    | .illTyped o => exact List.forall_mem_nil _

/-- Settles O12: a step keeps the parameters and adds only the replies of an event, whose frames are sealed. -/
theorem everyStepKeepsInvariant : Obligations.EveryStepKeepsInvariant := by
  rintro s t ⟨hwf, hsealed⟩ h
  obtain ⟨-, rfl | ⟨e, rest, -, -, rfl⟩⟩ := step_eq_next h
  · exact ⟨hwf, hsealed⟩
  · exact ⟨hwf, List.forall_mem_append.mpr ⟨hsealed, replySealed_eventReplies _ _ e⟩⟩

/-- Settles O2: TI is well-formed, and nothing has been returned. -/
theorem resetMeetsInvariant : Obligations.ResetMeetsInvariant := ⟨by decide, List.forall_mem_nil _⟩

/-- Settles O32: a frame that FRAME.VAL returns is sealed, so it is a body followed by its CRC. -/
theorem sealedFrameHasZeroResidue : Obligations.SealedFrameHasZeroResidue :=
  ⟨crc16x_append_self, fun _ _ h => crc16x_of_sealed (sealed_of_exec h)⟩

/-- Settles O40: the frame is sealed or it is not. -/
theorem frameValComparesTheChecksums : Obligations.FrameValComparesTheChecksums := by
  intro f s hlen
  refine ⟨rfl, fun h => ?_, fun h => ?_⟩
  · exact exec_frameVal_of_sealed (sealed_iff_toNat.mpr ⟨hlen, h⟩) s
  · have hs : ¬ Sealed f := fun hs => h (sealed_iff_toNat.mp hs).2
    exact exec_frameVal_of_error hlen (checksumError_of_not_sealed hlen hs).2 s

/-- Settles O44: a frame that is not sealed gets the error and no record. -/
theorem decoderRejectsMismatchFirst : Obligations.DecoderRejectsMismatchFirst := by
  intro f s hlen h
  have hs : ¬ Sealed f := fun hs => h (sealed_iff_toNat.mp hs).2
  exact exec_hdrDec_of_error hlen (checksumError_of_not_sealed hlen hs).2 s

/-! ## One flipped bit -/

theorem flipBit_length (f : Bytes) (k : Nat) : (flipBit f k).length = f.length := by simp [flipBit]

/-- A flipped bit changes its byte. -/
theorem xor_bit_ne (b : Byte) (k : Nat) : b ≠ b ^^^ (1#8 <<< (k % 8)) := by
  have hbit : ∀ j < 8, (1#8 <<< j) ≠ 0#8 := by decide
  intro h
  refine hbit (k % 8) (by omega) ((BitVec.xor_right_inj b).mp ?_)
  rw [← h, BitVec.xor_zero]

theorem crc16x_flipBit_ne {f : Bytes} {k : Nat} (h : k / 8 < f.length) : crc16x (flipBit f k) ≠ crc16x f := by
  obtain ⟨pre, b, post, hf, -, hflip⟩ := List.exists_of_modify (fun b : Byte => b ^^^ (1#8 <<< (k % 8))) h
  rw [flipBit, hflip, hf]
  exact (crc16x_ne_of_byte_ne pre post (xor_bit_ne b k)).symm

/-- Settles O42: the flipped frame has another CRC than 0x0000 over its 72 bytes, so it is not sealed. -/
theorem everySingleBitErrorIsDetected : Obligations.EverySingleBitErrorIsDetected := by
  intro f s s' k hlen hk hval
  have hlen' : (flipBit f k).length = 72 := (flipBit_length f k).trans hlen
  have hs : ¬ Sealed (flipBit f k) := fun hs =>
    crc16x_flipBit_ne (by omega) ((crc16x_of_sealed hs).trans (crc16x_of_sealed (sealed_of_exec hval)).symm)
  obtain ⟨hne, herr⟩ := checksumError_of_not_sealed hlen' hs
  exact ⟨_, _, hne, exec_frameVal_of_error hlen' herr s', exec_hdrDec_of_error hlen' herr s'⟩

end Sys2Proof.Machine
end

