-- ==== Sys2Proof/Proofs/FrameLayouts.lean ====
section
/-! The bytes of the frames that the encoders build (30_encoding.md R60 to R64, R76; 42_frame_codec.md R151 to R165)
and of a field written into a frame (20_memory.md R44, R45). -/

namespace Sys2Proof.Machine

/-! ## Padding -/

theorem padTo_take (n : Nat) (s t : Bytes) : (padTo n s ++ t).take s.length = s := by
  rw [padTo, List.append_assoc, List.take_left]

theorem padTo_getElem? {n k : Nat} {s : Bytes} (hs : s.length ≤ k) (hk : k < n) (t : Bytes) :
    (padTo n s ++ t)[k]? = some 0x00 := by
  have hlen : k < (padTo n s).length := by rw [padTo_length (by omega)]; exact hk
  rw [List.getElem?_append_left hlen, padTo, List.getElem?_append_right hs, zeros,
    List.getElem?_replicate_of_lt (by omega)]
  rfl

/-! ## FRAME.ENC -/

theorem exec_frameEnc {b : Bytes} (h : b.length ≤ 70) (s : State) :
    exec (.frameEnc b) s = .next { s with returned := s.returned ++ [.ok (.frame (commandFrame b))] } := by
  rw [exec_of_wf rfl, replyTo, if_neg h.not_gt]; rfl

theorem exec_frameEnc_overlength {b : Bytes} (h : b.length > 70) (s : State) :
    exec (.frameEnc b) s = .next { s with returned := s.returned ++ [.error (.overlength b.length 70)] } := by
  rw [exec_of_wf rfl, replyTo, if_pos h]; rfl

theorem take_commandFrame {b : Bytes} (h : b.length ≤ 70) : (commandFrame b).take 70 = padTo 70 b :=
  take_sealBody (padTo_length h)

/-- Settles O33: the command frame is the padded sequence, sealed. -/
theorem frameEncBuildsTheFrame : Obligations.FrameEncBuildsTheFrame := by
  intro b s
  refine ⟨rfl, fun h => ?_, fun h => exec_frameEnc_overlength h s⟩
  have hsealed := sealed_iff_toNat.mp (sealed_commandFrame h)
  refine ⟨_, exec_frameEnc h s, hsealed.1, padTo_take _ _ _, fun k hb hk => padTo_getElem? hb hk _, ?_⟩
  rw [← hsealed.2, take_commandFrame h]
  rfl

/-- Settles O41: the encoders' frames are sealed, and the validator accepts every sealed frame. -/
theorem validatorAcceptsEveryEncodedFrame : Obligations.ValidatorAcceptsEveryEncodedFrame := by
  refine ⟨fun b s s' h => ?_, fun i s s' f _ h => exec_frameVal_of_sealed (sealed_of_exec h) s'⟩
  exact ⟨_, exec_frameEnc h s, exec_frameVal_of_sealed (sealed_commandFrame h) s', padTo_take _ _ _⟩

/-! ## ENC.WF_PACKET -/

theorem exec_encWfPacket {g : Nat} {c : Bytes} (hc : c.length ≤ 64) (hg : g < 2 ^ 24) (s : State) :
    exec (.encWfPacket g c) s =
      .next { s with returned := s.returned ++ [.ok (.frame (sealBody (packetBody g c)))] } := by
  rw [exec_of_wf rfl, replyTo_encWfPacket_eq_frame.mpr ⟨hc, hg, rfl⟩]; rfl

/-- The packet-index byte, as the statements read it. -/
theorem packet_index_byte (g : Nat) (c : Bytes) : ((sealBody (packetBody g c)).getD 3 0).toNat = g % 256 := by
  have hbyte : (sealBody (packetBody g c)).getD 3 0 = packetIndex g := rfl
  rw [hbyte, packetIndex, BitVec.toNat_ofNat]
  exact Nat.mod_mod g 256

/-- The page-index bytes, high byte first. -/
theorem page_index_bytes {g : Nat} (hg : g < 2 ^ 24) (c : Bytes) :
    256 * ((sealBody (packetBody g c)).getD 4 0).toNat + ((sealBody (packetBody g c)).getD 5 0).toNat = g / 256 := by
  refine (be16Bytes_toNat (pageIndex g)).trans ?_
  rw [pageIndex, BitVec.toNat_ofNat]
  exact Nat.mod_eq_of_lt (by simp only [Config.pktIdxBits]; omega)

/-- The payload is the padded chunk; the checksum follows it. -/
theorem packet_payload (g : Nat) (c : Bytes) :
    (sealBody (packetBody g c)).drop 6 = padTo 64 c ++ be16Bytes (crc16x (packetBody g c)) := rfl

/-- Settles O35: the fields are read off the body; the checksum is that of a sealed frame. -/
theorem packetFrameFieldByField : Obligations.PacketFrameFieldByField := by
  intro g c s hc hg
  obtain ⟨hlen, hcrc⟩ := sealed_iff_toNat.mp (sealed_sealBody (packetBody_length hc g))
  refine ⟨rfl, _, exec_encWfPacket hc hg s, hlen, rfl, packet_index_byte g c, page_index_bytes hg c, ?_, ?_, hcrc.symm⟩
  · rw [packet_payload, padTo_take]
  · intro k hk hk'
    obtain ⟨j, rfl⟩ : ∃ j, k = 6 + j := ⟨k - 6, by omega⟩
    rw [← List.getElem?_drop, packet_payload, padTo_getElem? (by omega) (by omega)]

/-- Settles O37: the three bytes give g mod 256 and g div 256. -/
theorem packetFieldsIdentifyThePacket : Obligations.PacketFieldsIdentifyThePacket := by
  intro g g' c c' f f' s h h' hbytes
  obtain ⟨-, hg, rfl⟩ := replyTo_encWfPacket_eq_frame.mp (frame_of_exec h).2
  obtain ⟨-, hg', rfl⟩ := replyTo_encWfPacket_eq_frame.mp (frame_of_exec h').2
  have hbyte : ∀ k, 3 ≤ k → k < 6 → (sealBody (packetBody g c)).getD k 0 = (sealBody (packetBody g' c')).getD k 0 := by
    intro k hk hk'
    obtain ⟨j, rfl⟩ := Nat.exists_eq_add_of_le hk
    have hj : j < 3 := by omega
    exact (byteAt_memRead hj).symm.trans ((congrArg (byteAt · j) hbytes).trans (byteAt_memRead hj))
  have hidx := packet_index_byte g c
  have hpage := page_index_bytes hg c
  rw [hbyte 3 (by decide) (by decide), packet_index_byte] at hidx
  rw [hbyte 4 (by decide) (by decide), hbyte 5 (by decide) (by decide), page_index_bytes hg'] at hpage
  omega

/-! ## The opcode table's frame patterns -/

/-- Bytes under a zero mask read as zeros. -/
theorem zipWith_and_zeros (s : Bytes) :
    List.zipWith (fun b m => b &&& m) s (List.replicate s.length 0x00) = List.replicate s.length 0x00 := by
  induction s with
  | nil => rfl
  | cons b s ih =>
    rw [List.length_cons, List.replicate_succ, List.zipWith_cons_cons, ih]
    exact congrArg (List.cons · _) BitVec.and_zero

/-- A packet's body is three fixed bytes and 67 bytes that the pattern leaves open. -/
theorem matchesPattern_packetBody {g : Nat} {c : Bytes} (h : c.length ≤ 64) :
    matchesPattern (packetBody g c)
      ([0x55, 0x01, 0x00] ++ List.replicate 67 0x00, [0xFF, 0xFF, 0xFF] ++ List.replicate 67 0x00) = true := by
  obtain ⟨rest, hbody⟩ : ∃ rest, packetBody g c = wfPacketPrefix ++ rest := ⟨_, by
    rw [packetBody, List.append_assoc, List.append_assoc]⟩
  have hrest : rest.length = 67 := by
    have hlen := congrArg List.length hbody
    rw [packetBody_length h, List.length_append] at hlen
    exact (Nat.add_left_cancel hlen).symm
  have hzeros := zipWith_and_zeros rest
  rw [hrest] at hzeros
  rw [matchesPattern, hbody]
  dsimp only
  rw [List.zipWith_append (by rfl), hzeros]
  decide

/-- Settles O18: the fixed bodies are compared with their patterns; the packet's mask keeps its three fixed bytes. -/
theorem encodedFramesMatchTheirRow : Obligations.EncodedFramesMatchTheirRow := by
  intro i s f p hp h
  have hreply := (frame_of_exec h).2
  cases i
  case encInfo | encStatus | encEraseFlash | encEraseRam | encWfBegin =>
    cases hp; cases hreply
    rw [take_commandFrame (by decide)]
    decide +kernel
  case encWfPacket g c =>
    cases hp
    obtain ⟨hc, -, rfl⟩ := replyTo_encWfPacket_eq_frame.mp hreply
    rw [take_sealBody (packetBody_length hc g)]
    exact matchesPattern_packetBody hc
  all_goals cases hp

/-! ## A field written into a frame -/

theorem memWrite_length {f v : Bytes} {a : Nat} (h : a + v.length ≤ f.length) : (memWrite f a v).length = f.length := by
  simp [memWrite]; omega

theorem memWrite_getElem?_inside {f v : Bytes} {a j : Nat} (ha : a ≤ f.length) (hj : j < v.length) :
    (memWrite f a v)[a + j]? = v[j]? := by
  have htake : (f.take a).length = a := List.length_take_of_le ha
  rw [memWrite, List.append_assoc, List.getElem?_append_right (by omega), htake, Nat.add_sub_cancel_left,
    List.getElem?_append_left hj]

theorem memWrite_getElem?_before {f v : Bytes} {a k : Nat} (ha : a ≤ f.length) (hk : k < a) :
    (memWrite f a v)[k]? = f[k]? := by
  have htake : (f.take a).length = a := List.length_take_of_le ha
  rw [memWrite, List.append_assoc, List.getElem?_append_left (by omega), List.getElem?_take_of_lt hk]

theorem memWrite_getElem?_after {f v : Bytes} {a k : Nat} (ha : a ≤ f.length) (hk : a + v.length ≤ k) :
    (memWrite f a v)[k]? = f[k]? := by
  have hlen : (f.take a ++ v).length = a + v.length := by rw [List.length_append, List.length_take_of_le ha]
  rw [memWrite, List.getElem?_append_right (by omega), hlen, List.getElem?_drop, Nat.add_sub_cancel' hk]

/-- Settles O43: inside the field the bytes are those written, outside those of the frame. -/
theorem fieldWrittenBigEndianReadsBack : Obligations.FieldWrittenBigEndianReadsBack := by
  intro f a v hlen ha
  have hhi : (memWrite f a (be16Bytes v)).getD a 0 = v.extractLsb' 8 8 := by
    have hget : (memWrite f a (be16Bytes v))[a]? = (be16Bytes v)[0]? :=
      memWrite_getElem?_inside (j := 0) (by omega) (by simp)
    rw [List.getD_eq_getElem?_getD, hget]; rfl
  have hlo : (memWrite f a (be16Bytes v)).getD (a + 1) 0 = v.extractLsb' 0 8 := by
    rw [List.getD_eq_getElem?_getD, memWrite_getElem?_inside (by omega) (by simp)]; rfl
  have hnum := be16Bytes_toNat v
  refine ⟨?_, ?_, ?_, ?_, ?_⟩
  · rw [word16At, byteAt, byteAt, hhi, hlo, be16_extract]
  · rw [hhi]; omega
  · rw [hlo]; omega
  · exact (memWrite_length (by rw [be16Bytes_length]; omega)).trans hlen
  · rintro k (hk | hk)
    · exact memWrite_getElem?_before (by omega) hk
    · exact memWrite_getElem?_after (by omega) hk

end Sys2Proof.Machine
end

