-- ==== Sys2Proof/Proofs/Streaming.lean ====
section
/-! A write-flash session (42_frame_codec.md R164): the packets that the host's contract issues for an image, and the
image in their payloads. -/

namespace Sys2Proof.Machine

/-! ## Running the packets -/

/-- Packets that are in range run to the end, and each returns its frame. -/
theorem execAll_packets {gs : List Nat} {chunk : Nat → Bytes} (h : ∀ g ∈ gs, (chunk g).length ≤ 64 ∧ g < 2 ^ 24)
    (s : State) :
    execAll (gs.map fun g => .encWfPacket g (chunk g)) s =
      .next { s with returned := s.returned ++ gs.map fun g => .ok (.frame (sealBody (packetBody g (chunk g)))) } := by
  induction gs generalizing s with
  | nil => simp [execAll]
  | cons g gs ih =>
    obtain ⟨⟨hc, hg⟩, hgs⟩ := List.forall_mem_cons.mp h
    rw [List.map_cons, execAll_cons_of_exec (exec_encWfPacket hc hg s), ih hgs]
    simp

/-! ## The image in its chunks -/

theorem chunkOf_length_le (image : Bytes) (g : Nat) : (chunkOf image g).length ≤ 64 := List.length_take_le _ _

/-- Padded parts join to the padded whole when the first part is full or the second is empty. -/
theorem padTo_append_padTo {m n : Nat} {s t : Bytes} (hs : s.length ≤ m) (h : s.length = m ∨ t = []) :
    padTo m s ++ padTo n t = padTo (m + n) (s ++ t) := by
  rcases h with rfl | rfl
  · simp [padTo, zeros, Nat.add_sub_add_left]
  · simp [padTo, zeros, Nat.sub_add_comm hs]

/-- The first n chunks, each padded to 64 bytes, are the first 64n bytes of the image, padded. -/
theorem flatten_chunks (image : Bytes) (n : Nat) :
    ((List.range n).map fun g => padTo 64 (chunkOf image g)).flatten = padTo (64 * n) (image.take (64 * n)) := by
  induction n with
  | zero => rfl
  | succ n ih =>
    have hchunk : (image.take (64 * n)).length = 64 * n ∨ chunkOf image n = [] := by
      rcases Nat.le_total (64 * n) image.length with h | h
      · exact .inl (List.length_take_of_le h)
      · exact .inr (congrArg (List.take 64) (List.drop_eq_nil_of_le h))
    rw [List.range_succ, List.map_append, List.flatten_append, ih, List.map_singleton, List.flatten_singleton,
      padTo_append_padTo (List.length_take_le _ _) hchunk, Nat.mul_succ, List.take_add]
    rfl

/-- A packet's payload bytes are its padded chunk. -/
theorem packet_payload_take {c : Bytes} (h : c.length ≤ 64) (g : Nat) :
    ((sealBody (packetBody g c)).drop 6).take 64 = padTo 64 c := by
  rw [packet_payload, List.take_left' (padTo_length h)]

/-- The frame of packet g of an image. -/
def imagePacket (image : Bytes) (g : Nat) : Bytes := sealBody (packetBody g (chunkOf image g))

/-- Settles O38: the packets are in range, and n = ceil(L/64) chunks hold the whole image. -/
theorem streamedImageStandsInThePackets : Obligations.StreamedImageStandsInThePackets := by
  intro image s hlen
  have hcount : packetCount image.length = (image.length + 63) / 64 := rfl
  have hrange : ∀ g ∈ List.range (packetCount image.length), (chunkOf image g).length ≤ 64 ∧ g < 2 ^ 24 := by
    intro g hg
    rw [List.mem_range, hcount] at hg
    exact ⟨chunkOf_length_le image g, by omega⟩
  refine ⟨(List.range (packetCount image.length)).map (imagePacket image), ?_, ?_, ?_, ?_⟩
  · rw [streamImage, execAll_packets hrange, List.map_map]; rfl
  · rw [List.length_map, List.length_range, hcount]
  · intro g f hf
    rw [List.getElem?_map] at hf
    obtain ⟨g', hg', rfl⟩ := Option.map_eq_some_iff.mp hf
    obtain ⟨hlt, rfl⟩ := List.getElem?_eq_some_iff.mp hg'
    have hg := (hrange _ (List.getElem_mem hlt)).2
    rw [List.getElem_range] at hg ⊢
    exact ⟨packet_index_byte g _, page_index_bytes hg _⟩
  · have hpayload : (fun f : Bytes => (f.drop 6).take 64) ∘ imagePacket image = fun g => padTo 64 (chunkOf image g) :=
      funext fun g => packet_payload_take (chunkOf_length_le image g) g
    rw [List.map_map, hpayload, flatten_chunks, List.take_of_length_le (by omega), hcount]
    rfl

end Sys2Proof.Machine
end

