-- ==== Sys2Proof/Proofs/LookupTables.lean ====
section
/-! The lookup operations (40_lookup_tables.md R101 to R112): each in its own table, the entries that the source
fixes, and what licensee resolution reads. -/

namespace Sys2Proof.Machine

/-- Tables that agree on a code resolve it alike. -/
theorem resolve_congr {κ ν : Type} [BEq κ] {t t' : CodeTable κ ν} {k : κ} (h : t'.lookup k = t.lookup k) :
    resolve t' k = resolve t k := by
  rw [resolve, resolve, tableGet, h, tableGet]

/-! ## The operations -/

theorem exec_lutManuf (code : Byte) (s : State) :
    exec (.lutManuf code) s = .next (giveReply (.ok (.resolved (resolve s.params.manufTable code))) s) := rfl
theorem exec_lutOldlic (code : Byte) (s : State) :
    exec (.lutOldlic code) s = .next (giveReply (.ok (.resolved (resolve s.params.oldLicTable code))) s) := rfl
theorem exec_lutNewlic (n1 n2 : Byte) (s : State) :
    exec (.lutNewlic n1 n2) s = .next (giveReply (.ok (.resolved (resolve s.params.newLicTable (n1, n2)))) s) := rfl
theorem exec_lutCart (code : Byte) (s : State) :
    exec (.lutCart code) s = .next (giveReply (.ok (.resolved (resolve s.params.cartTypeTable code))) s) := rfl

/-- Settles O51: each reply is `resolve` in the operation's own table. -/
theorem lookupsResolveInTheirTable : Obligations.LookupsResolveInTheirTable := by
  intro s n1 n2
  exact ⟨⟨_, exec_lutManuf n1 s, fun _ => resolve_eq_known⟩, ⟨_, exec_lutOldlic n1 s, fun _ => resolve_eq_known⟩,
    ⟨_, exec_lutNewlic n1 n2 s, fun _ => resolve_eq_known⟩, ⟨_, exec_lutCart n1 s, fun _ => resolve_eq_known⟩⟩

/-- Settles O52: the two numbers make up the selector, and the selector decodes to the table's operation. -/
theorem multiplexerSelectsByTheLowBits : Obligations.MultiplexerSelectsByTheLowBits := by
  intro s o a b rest hwf hhigh
  have hsel : ∀ k : Byte, o.toNat % 4 + 4 * 0x1C = k.toNat → o = k := fun k hk => BitVec.eq_of_toNat_eq (by omega)
  refine ⟨?_, ?_⟩
  · rintro t hp (⟨hlow, rfl⟩ | ⟨hlow, rfl⟩ | ⟨hlow, rfl⟩)
    · obtain rfl := hsel 0x70 (by rw [hlow]; rfl)
      exact step_of_decode_ok hwf hp (i := .lutManuf a) rfl
    · obtain rfl := hsel 0x71 (by rw [hlow]; rfl)
      exact step_of_decode_ok hwf hp (i := .lutOldlic a) rfl
    · obtain rfl := hsel 0x73 (by rw [hlow]; rfl)
      exact step_of_decode_ok hwf hp (i := .lutCart a) rfl
  · intro hp hlow
    obtain rfl := hsel 0x72 (by rw [hlow]; rfl)
    exact step_of_decode_ok hwf hp (i := .lutNewlic a b) rfl

/-- Settles O53: the tables hold the three entries, and `resolve` answers what the table gives. -/
theorem sourceEntriesResolveInEveryInstance : Obligations.SourceEntriesResolveInEveryInstance := by
  intro s n1 n2 hwf
  obtain ⟨hmanuf, hold, hnew⟩ := paramsWf_fixed hwf
  have hmanuf' := resolve_eq_unknown.mpr hmanuf
  have hold' := resolve_eq_known.mpr hold
  have hnew' := resolve_eq_known.mpr hnew
  refine ⟨?_, ?_, ?_, ?_, ?_⟩
  · rw [exec_lutManuf, hmanuf']; rfl
  · rw [exec_lutOldlic, hold']; rfl
  · rw [exec_lutNewlic, hnew']; rfl
  · rw [exec_licRes, resolveLicensee_of_escape rfl, hnew']; rfl
  · rw [exec_licRes, resolveLicensee_of_not_escape (by decide), hold']; rfl

/-- Settles O55: with the escape only the pair's entry is read, without it only the old byte's. -/
theorem licenseeReadsOnlyItsEntry : Obligations.LicenseeReadsOnlyItsEntry := by
  intro s s' old n1 n2 m1 m2 hold hnew
  refine ⟨_, exec_licRes old n1 n2 s, ?_⟩
  rw [exec_licRes]
  by_cases h : old.toNat = 0x33
  · obtain ⟨rfl, rfl, hentry⟩ := hnew (BitVec.eq_of_toNat_eq h)
    rw [resolveLicensee_of_escape h, resolveLicensee_of_escape h, resolve_congr hentry]; rfl
  · have hentry := hold.resolve_right fun he => h (congrArg BitVec.toNat he)
    rw [resolveLicensee_of_not_escape h, resolveLicensee_of_not_escape h, resolve_congr hentry]; rfl

end Sys2Proof.Machine
end

