-- ==== Sys2Proof/Proofs/ResponseRecords.lean ====
section
/-! The response decoder (43_response_decoder.md R180 to R199): the fields as slices of the frame, and the record of
a sealed frame in each of the decoder's two states. -/

namespace Sys2Proof.Machine

variable {ν : Type}

/-! ## Fields -/

theorem fieldWidth_pos (k : RespField) : 0 < fieldWidth k := by cases k <;> decide

/-- A one-byte field is the byte at its offset (R181). -/
theorem fieldByte_eq (l : RespLayout) (f : Bytes) (k : RespField) : fieldByte l f k = f.getD (fieldOff l k) 0 :=
  byteAt_memRead (fieldWidth_pos k)

/-- A byte of a field is the byte of the frame at the same place (R181). -/
theorem byteAt_field {l : RespLayout} {f : Bytes} {k : RespField} {i : Nat} (h : i < fieldWidth k) :
    byteAt (field l f k) i = f.getD (fieldOff l k + i) 0 := byteAt_memRead h

theorem memRead_length {f : Bytes} {a n : Nat} (h : a + n ≤ f.length) : (memRead f a n).length = n := by
  rw [memRead, List.length_take_of_le (by rw [List.length_drop]; omega)]

theorem memRead_take {f : Bytes} {a n m : Nat} (h : a + n ≤ m) : memRead (f.take m) a n = memRead f a n := by
  rw [memRead, List.drop_take, List.take_take, Nat.min_eq_left (by omega), memRead]

theorem take_memRead {f : Bytes} {a n k : Nat} (h : k ≤ n) : (memRead f a n).take k = (f.drop a).take k := by
  rw [memRead, List.take_take, Nat.min_eq_left h]

theorem memRead_getElem? {f : Bytes} {a n i : Nat} (h : i < n) : (memRead f a n)[i]? = f[a + i]? := by
  rw [memRead, List.getElem?_take_of_lt h, List.getElem?_drop]

/-- Settles O50: a well-formed layout keeps every field below byte 70. -/
theorem fieldsLieInsideTheBody : Obligations.FieldsLieInsideTheBody := by
  intro p f k hwf hlen
  have hbound := paramsWf_layout hwf k
  exact ⟨memRead_length (by omega), (memRead_take hbound).symm⟩

/-! ## Single values -/

theorem decodeFw_major (v : Byte) : (decodeFw v).major.toNat = v.toNat / 16 := by
  have hlt := v.isLt
  rw [decodeFw, BitVec.extractLsb'_toNat, Nat.shiftRight_eq_div_pow, Nat.mod_eq_of_lt (by omega)]

theorem decodeFw_minor (v : Byte) : (decodeFw v).minor.toNat = v.toNat % 16 := by
  rw [decodeFw, BitVec.extractLsb'_toNat]; rfl

theorem decodeDest_eq_japan {v : Byte} : decodeDest v = .japan ↔ v = 0x00 := by
  unfold decodeDest; split_ifs <;> simp_all

theorem decodeDest_eq_nonJapan {v : Byte} : decodeDest v = .nonJapan ↔ v = 0x01 := by
  unfold decodeDest; split_ifs <;> simp_all

/-- A predicate holds of the bytes in one of its ranges (R7). -/
theorem predHolds_iff {p : ByteSet} {b : Byte} :
    predHolds p b = true ↔ ∃ r ∈ p, r.lo.toNat ≤ b.toNat ∧ b.toNat ≤ r.hi.toNat := by
  simp [predHolds, BitVec.le_def]

/-! ## The two states (R185) -/

theorem decodeHeader_of_valid {p : Params ν} {f : Bytes}
    (h : predHolds p.logoValidPred (f.getD p.respLayout.logo 0) = true) :
    decodeHeader p f = .logoValid (decodeInfo p f) (decodeCart p f) := by
  rw [decodeHeader, fieldByte_eq]
  exact if_pos h

theorem decodeHeader_of_invalid {p : Params ν} {f : Bytes}
    (h : predHolds p.logoValidPred (f.getD p.respLayout.logo 0) = false) :
    decodeHeader p f = .logoInvalid (decodeInfo p f) .blank := by
  rw [decodeHeader, fieldByte_eq]
  exact if_neg (Bool.eq_false_iff.mp h)

theorem decodeHeader_eq_logoValid {p : Params ν} {f : Bytes} {info : ReaderInfo ν} {cart : CartridgeInfo ν} :
    decodeHeader p f = .logoValid info cart ↔
      predHolds p.logoValidPred (f.getD p.respLayout.logo 0) = true ∧ info = decodeInfo p f ∧
        cart = decodeCart p f := by
  cases h : predHolds p.logoValidPred (f.getD p.respLayout.logo 0)
  · simp [decodeHeader_of_invalid h]
  · simp [decodeHeader_of_valid h, eq_comm]

/-- Settles O45: the record is `decodeHeader`'s, which is in the state that the predicate says. -/
theorem decoderIsTotalOnSealedFrames : Obligations.DecoderIsTotalOnSealedFrames := by
  intro f s hs
  refine ⟨rfl, _, exec_hdrDec_of_sealed hs s, ?_⟩
  rw [← predHolds_iff]
  constructor
  · rintro ⟨info, cart, h⟩
    exact (decodeHeader_eq_logoValid.mp h).1
  · exact fun h => ⟨_, _, decodeHeader_of_valid h⟩

/-- Settles O46: the record of an invalid logo is `decodeInfo` and the message. -/
theorem logoInvalidRecord : Obligations.LogoInvalidRecord := by
  intro f s hs hlogo
  refine ⟨_, _, _, (exec_hdrDec_of_sealed hs s).trans (by rw [decodeHeader_of_invalid hlogo, decodeInfo]), ?_⟩
  exact ⟨fieldByte_eq _ f .fw, decodeFw_major _, decodeFw_minor _, fieldByte_eq _ f .manuf,
    fun _ => resolve_eq_known, fieldByte_eq _ f .devid⟩

/-- Settles O47: the record of a valid logo is `decodeInfo` and `decodeCart`, each of whose fields is read at its
offset. -/
theorem logoValidRecord : Obligations.LogoValidRecord := by
  rintro f s l hs rfl hlogo
  refine ⟨decodeInfo s.params f, decodeCart s.params f, ?_, ?_⟩
  · rw [exec_hdrDec_of_sealed hs, decodeHeader_of_valid hlogo]
  have hnew : (decodeCart s.params f).newLicRaw =
      (f.getD s.params.respLayout.newlic 0, f.getD (s.params.respLayout.newlic + 1) 0) :=
    Prod.ext (byteAt_field (k := .newlic) (by decide)) (byteAt_field (k := .newlic) (by decide))
  have hcartck : (decodeCart s.params f).cartChecksum.toNat =
      256 * (f.getD s.params.respLayout.cartck 0).toNat + (f.getD (s.params.respLayout.cartck + 1) 0).toNat := by
    refine (be16_toNat _ _).trans ?_
    rw [byteAt_field (by decide), byteAt_field (by decide)]
    rfl
  exact ⟨fieldByte_eq _ f .fw, decodeFw_major _, decodeFw_minor _, fieldByte_eq _ f .manuf,
    fun _ => resolve_eq_known, fieldByte_eq _ f .devid,
    fieldByte_eq _ f .prot, fieldByte_eq _ f .cgb, rfl, fieldByte_eq _ f .oldlic, hnew, exec_licRes _ _ _ s,
    fieldByte_eq _ f .sgb, rfl, fieldByte_eq _ f .ctype, exec_lutCart _ s, fieldByte_eq _ f .romsz,
    fieldByte_eq _ f .ramsz, fieldByte_eq _ f .dest, decodeDest_eq_japan, decodeDest_eq_nonJapan,
    fieldByte_eq _ f .maskver, fieldByte_eq _ f .hdrck, hcartck⟩

/-! ## The title (R189) -/

theorem decodeTitle_prefix (t : Bytes) : decodeTitle t = t.take (decodeTitle t).length :=
  List.prefix_iff_eq_take.mp (List.takeWhile_prefix _)

theorem zero_notMem_decodeTitle (t : Bytes) : 0x00 ∉ decodeTitle t := by
  intro h
  exact absurd (List.mem_takeWhile_imp h) (by decide)

/-- A title shorter than its field ends at a zero byte. -/
theorem decodeTitle_getElem?_length {t : Bytes} (h : (decodeTitle t).length < t.length) :
    t[(decodeTitle t).length]? = some 0x00 := by
  induction t with
  | nil => exact absurd h (Nat.lt_irrefl 0)
  | cons b t ih =>
    by_cases hb : b = 0x00
    · subst hb; rfl
    · have hcons : decodeTitle (b :: t) = b :: decodeTitle t := List.takeWhile_cons_of_pos (by simpa using hb)
      rw [hcons, List.length_cons, List.getElem?_cons_succ]
      rw [hcons] at h
      exact ih (Nat.lt_of_succ_lt_succ h)

/-- Settles O48: the title is `decodeTitle` of a field of 16 bytes. -/
theorem titleEndsAtFirstZero : Obligations.TitleEndsAtFirstZero := by
  intro f s info cart hwf h
  have hframe := wf_hdrDec.mp (exec_eq_next.mp h).1
  have hreply := reply_of_exec h rfl
  rw [replyTo] at hreply
  obtain ⟨-, hheader⟩ := checkedReply_eq_ok.mp hreply.symm
  obtain ⟨-, -, rfl⟩ := decodeHeader_eq_logoValid.mp (Result.header.inj hheader)
  have hbound := paramsWf_layout hwf .title
  have hfield : (field s.params.respLayout f .title).length = 16 := memRead_length (by omega)
  have hle : (decodeTitle (field s.params.respLayout f .title)).length ≤ 16 :=
    hfield ▸ (List.takeWhile_prefix _).length_le
  refine ⟨hle, (decodeTitle_prefix _).trans (take_memRead hle), zero_notMem_decodeTitle _, fun hlt => ?_⟩
  exact (memRead_getElem? hlt).symm.trans (decodeTitle_getElem?_length (hlt.trans_eq hfield.symm))

/-- Settles O49: the record of an invalid logo reads three bytes, and the logo byte selects it. -/
theorem logoInvalidIgnoresCartridgeBytes : Obligations.LogoInvalidIgnoresCartridgeBytes := by
  intro f f' s hs hs' hbytes hlogo
  have hbyte : ∀ k ∈ [RespField.fw, .manuf, .devid, .logo],
      f.getD (fieldOff s.params.respLayout k) 0 = f'.getD (fieldOff s.params.respLayout k) 0 := by
    intro k hk
    rw [List.getD_eq_getElem?_getD, hbytes k hk, List.getD_eq_getElem?_getD]
  have hfw := hbyte .fw (by simp)
  have hmanuf := hbyte .manuf (by simp)
  have hdevid := hbyte .devid (by simp)
  have hlogo' := (congrArg (predHolds s.params.logoValidPred) (hbyte .logo (by simp))).symm.trans hlogo
  have hinfo : decodeInfo s.params f = decodeInfo s.params f' := by
    simp only [decodeInfo, fieldByte_eq, hfw, hmanuf, hdevid]
  rw [exec_hdrDec_of_sealed hs, exec_hdrDec_of_sealed hs', decodeHeader_of_invalid hlogo,
    decodeHeader_of_invalid hlogo', hinfo]

end Sys2Proof.Machine
end

