-- ==== Sys2Proof/Proofs/AssemblyLines.lean ====
section
/-! The lines of test programs (30_encoding.md R74, R75) and the requests they stand for. -/

namespace Sys2Proof.Machine

theorem requestsOf_crcFeedN (b : Byte) (n : Nat) :
    requestsOf "CRC.FEEDN" [.byte b, .nat n] = some ((crcFeedN b n).map encode) := rfl

theorem requestsOf_crcSpan (s : Bytes) : requestsOf "CRC.SPAN" [.bytes s] = some ((crcSpan s).map encode) := rfl

theorem requestsOf_frameVal (ops : List Operand) : requestsOf "FRAME.VAL" ops = some [⟨0x50, ops⟩] := rfl

/-- Settles O56: the pseudo-operations stand for the encodings of their expansions. -/
theorem linesStandForTheirRequests : Obligations.LinesStandForTheirRequests := by
  refine ⟨?text, fun b n => ?feedN, fun s => ?span, fun f env => ?named⟩
  case text => decide
  case feedN => exact (requestsOf_crcFeedN b n).trans (by simp [crcFeedN, encode])
  case span => exact (requestsOf_crcSpan s).trans (by simp [crcSpan, encode])
  case named => exact requestsOf_frameVal [.bytes f]

end Sys2Proof.Machine
end

