-- ==== Sys2Proof/Proofs/Renaming.lean ====
section
/-! Renaming the names (00_scope.md R7): it commutes with every operation and every step, and an injective renaming
keeps which parameters are well-formed. -/

namespace Sys2Proof.Machine

variable {ν ν' : Type} {ρ : ν → ν'}

/-! ## Operations -/

/-- The reply to renamed parameters is the renamed reply. -/
theorem renameReply_replyTo (i : Instr) (p : Params ν) (c : U16) :
    renameReply ρ (replyTo i p c) = replyTo i (renameParams ρ p) c := by
  cases i
  case frameEnc b => simp only [replyTo]; split <;> rfl
  case encWfPacket g b =>
    simp only [replyTo]
    split
    · rfl
    · split <;> rfl
  case frameVal f => simp only [replyTo, checkedReply]; split <;> rfl
  case hdrDec f =>
    simp only [replyTo, checkedReply]
    split
    · rfl
    · exact decodeHeader_renameParams ρ p f
  case lutManuf | lutOldlic | lutNewlic | lutCart => simp [replyTo, renameReply, renameParams]
  case licRes => simp [replyTo, renameReply]
  all_goals rfl

theorem renameState_giveReply (r : Reply ν) (s : State.Of ν) :
    renameState ρ (giveReply r s) = giveReply (renameReply ρ r) (renameState ρ s) := by
  simp [giveReply, renameState]

/-- Running an operation on the renamed state is the renamed outcome. -/
theorem operate_renameState (i : Instr) (s : State.Of ν) :
    operate i (renameState ρ s) = renameOutcome ρ (operate i s) := by
  cases h : i.wf
  · rw [operate_of_not_wf h, operate_of_not_wf h]; rfl
  · rw [operate_of_wf h, operate_of_wf h, renameOutcome, renameState_giveReply, renameReply_replyTo]; rfl

/-! ## The engine -/

theorem serveRequest_renameState (r : Request) (s : State.Of ν) :
    serveRequest operate r (renameState ρ s) = renameOutcome ρ (serveRequest operate r s) := by
  rw [serveRequest, serveRequest]
  match decode r with
  | .ok i => exact operate_renameState i s
  | .reserved o => exact (renameOutcome_raiseError ρ _ s).symm
  | .illTyped o => rfl

theorem serveNext_renameState (s : State.Of ν) :
    serveNext operate (renameState ρ s) = renameOutcome ρ (serveNext operate s) := by
  rw [serveNext, serveNext, renameState_pending]
  match s.pending with
  | [] => rfl
  | .reset :: rest => rfl
  | .issue r :: rest => exact serveRequest_renameState r { s with pending := rest }

/-! ## Well-formed parameters -/

theorem renameTable_codes {κ β : Type} (g : κ → β) (t : CodeTable κ ν) :
    (renameTable ρ t).map (fun e => g e.1) = t.map fun e => g e.1 := by
  simp [renameTable]

/-- An injective renaming keeps the fixed entries, and the absence of others. -/
theorem fixedEntries_rename [DecidableEq ν] [DecidableEq ν'] (hρ : Function.Injective ρ) (nm : FixedNames ν)
    (p : Params ν) : fixedEntries (renameFixed ρ nm) (renameParams ρ p) = fixedEntries nm p := by
  rw [Bool.eq_iff_iff]
  simp [fixedEntries, renameParams, renameFixed, hρ.eq_iff]

theorem instWf_rename [DecidableEq ν] [DecidableEq ν'] (hρ : Function.Injective ρ) (nm : FixedNames ν)
    (p : Params ν) : instWf (renameFixed ρ nm) (renameParams ρ p) = instWf nm p := by
  rw [instWf, fixedEntries_rename hρ, instWf]
  simp only [byteTableWf, pairTableWf, renameParams, renameTable_codes]

/-- Settles O58: the parameters are accepted for both or for neither, and the event is served alike. -/
theorem renamingNamesCommutesWithEveryStep : Obligations.RenamingNamesCommutesWithEveryStep := by
  intro ν ν' _ _ ρ nm s hρ
  rw [blockStep, blockStep, stepWith, stepWith, renameState_params, instWf_rename hρ, serveNext_renameState]
  split <;> rfl

end Sys2Proof.Machine
end
